-- ==== Sys2Proof/Word.lean ====
section
/-! DEFINITION. The word types of bloom_filter_core: what the spec treats as bits (00_scope.md R11, R15). -/

namespace Sys2Proof

/-- One byte of the bit array, and of a word before hashing (R21, R150). -/
abbrev Byte := BitVec 8

/-- The 64-bit hash operand `h` (R11, R61). -/
abbrev Hash := BitVec 64

/-- One of the four 16-bit fragments of a hash (R11, R90). -/
abbrev Fragment := BitVec 16

/-- The opcode field `CMD[65:64]` (R66). -/
abbrev Opcode := BitVec 2

/-- The command word `CMD[65:0]`, opcode above operand (R66). -/
abbrev CommandWord := BitVec 66

end Sys2Proof
end

