-- ==== Sys2Proof/Config.lean ====
section
/-! DEFINITION. What one build of the block fixes (00_scope.md R8 to R13), and the type of the open hash function. -/

namespace Sys2Proof

/-- The two construction parameters of a build, fixed when the block is built (R8, R13). -/
structure Build where
  /-- `SIZE_IN_BITS` (R8). -/
  sizeInBits : Nat
  /-- `CW`, the width in bits of the counter and of `rsp_count` (R13). -/
  cw : Nat
  deriving DecidableEq, Repr

/-- The reference configuration of R8 with the default counter width of R13: 64000 bits, `CW = 64`. -/
def Build.reference : Build := { sizeInBits := 64000, cw := 64 }

/-- `HASH64` (R12): an open function of the environment, from a finite byte sequence to a 64-bit value.
Every definition that needs it takes it as an argument; none is fixed anywhere in the model. -/
abbrev Hash64 := List Byte → Hash

end Sys2Proof
end

