-- ==== Sys2Proof/Syntax.lean ====
section
/-! DEFINITION. The commands of the block, one constructor per row of spec/opcode_table.json (30_encoding.md R66). -/

namespace Sys2Proof

/-- A command as decoded. `LEN` and the reserved opcode keep the 64 bits that they ignore (R66, R69, R170), so that the
statement "ignored" is a theorem about the machine and no bit of a command word is lost in decoding. -/
inductive Instr where
  /-- `LEN`, op 0b00: reads the counter (R145). -/
  | len (ignored : BitVec 64)
  /-- `ADD h`, op 0b01: the insert operation (R130). -/
  | add (h : BitVec 64)
  /-- `CHECK h`, op 0b10: the membership check (R140). -/
  | check (h : BitVec 64)
  /-- The reserved opcode 0b11 (R68, R171). -/
  | illegal (ignored : BitVec 64)
  deriving DecidableEq, Repr

end Sys2Proof
end

