-- ==== Sys2Proof/WellFormed.lean ====
section
/-! DEFINITION. Which builds are a bloom_filter_core, and which commands an assembler emits. -/

namespace Sys2Proof

/-- The constraints of R10 and R13: `L >= 1`, that is `SIZE_IN_BITS >= 8`, and `CW >= 1`. -/
def Build.legal (b : Build) : Bool := decide (8 ≤ b.sizeInBits) && decide (1 ≤ b.cw)

/-- Every command is well-formed: every 64-bit operand is legal (R61, R91) and every 66-bit word is one of the four
commands (R67). The widths are in the types, so no check is left to make. -/
def Instr.wellFormed : Instr → Bool
  | .len _ => true
  | .add _ => true
  | .check _ => true
  | .illegal _ => true

/-- The canonical form an assembler emits: `LEN` with `CMD[63:0] = 0` (R69). The other rows have no ignored bits that the
spec fixes: `.illegal` is written with its low 64 bits (R73). -/
def Instr.canonical : Instr → Bool
  | .len x => x == 0#64
  | .add _ => true
  | .check _ => true
  | .illegal _ => true

end Sys2Proof
end

