-- ==== Sys2Proof/Decode.lean ====
section
/-! DEFINITION. The decoder of 30_encoding.md R67, the opcode map as match and mask rows, and the encoder of R66. -/

namespace Sys2Proof

/-- The decoder of R67: total, and it looks at `CMD[65:64]` alone. -/
def decode (w : CommandWord) : Instr :=
  let op : Opcode := w.extractLsb' 64 2
  let h : Hash := w.extractLsb' 0 64
  if op = 0b00#2 then .len h
  else if op = 0b01#2 then .add h
  else if op = 0b10#2 then .check h
  else .illegal h

/-- Why a number is no command word. -/
inductive DecodeError where
  /-- It has bits above `CMD[65]`: a command is 66 bits, never longer (R71). -/
  | widerThanACommand
  deriving DecidableEq, Repr

/-- The decoder on any natural number, refusing by name what does not fit the 66 wires (R71). -/
def decodeNat (n : Nat) : Except DecodeError Instr :=
  if n < 2 ^ 66 then .ok (decode (BitVec.ofNat 66 n)) else .error .widerThanACommand

/-- The command that the decoder reads from `nbits` bits `w` of a row of the opcode table; bits from `nbits` up are 0.
The block has one 66-bit command word on parallel wires (R71), so bit `n` of `w` is `CMD[n]`. -/
def decodeTableWord (nbits w : Nat) : Option Instr :=
  match decodeNat (w % 2 ^ nbits) with
  | .ok i => some i
  | .error _ => none

/-- The opcode of a command: the map of R66. -/
def Instr.opcode : Instr → BitVec 2
  | .len _ => 0b00#2
  | .add _ => 0b01#2
  | .check _ => 0b10#2
  | .illegal _ => 0b11#2

/-- The low 64 bits of a command's word (R66). -/
def Instr.operand : Instr → BitVec 64
  | .len x => x
  | .add h => h
  | .check h => h
  | .illegal x => x

/-- `CMD = {op, h}` (R66). -/
def encode (i : Instr) : CommandWord := i.opcode ++ i.operand

/-- One row of the opcode map as the match and mask pair of R67. -/
structure OpcodeRow where
  /-- The mnemonic of the table. -/
  mnemonic : String
  /-- The value of the masked bits. -/
  pattern : CommandWord
  /-- The bits that select the row. -/
  mask : CommandWord
  deriving DecidableEq, Repr

/-- The mask common to all four rows: `CMD[65:64]` (R67). -/
def opcodeMask : CommandWord := 0x30000000000000000#66

/-- The opcode map of R67. -/
def opcodeRows : List OpcodeRow :=
  [{ mnemonic := "LEN", pattern := 0x00000000000000000#66, mask := opcodeMask },
   { mnemonic := "ADD", pattern := 0x10000000000000000#66, mask := opcodeMask },
   { mnemonic := "CHECK", pattern := 0x20000000000000000#66, mask := opcodeMask },
   { mnemonic := "ILLEGAL", pattern := 0x30000000000000000#66, mask := opcodeMask }]

/-- The table's mnemonic of a command. -/
def mnemonicOf : Instr → String
  | .len _ => "LEN"
  | .add _ => "ADD"
  | .check _ => "CHECK"
  | .illegal _ => "ILLEGAL"

/-- Whether a command word is an instance of a row. -/
def rowMatches (r : OpcodeRow) (w : CommandWord) : Bool := w &&& r.mask == r.pattern

end Sys2Proof
end

