-- ==== Sys2Proof/Machine/State.lean ====
section
/-! DEFINITION. The state of the block (10_state.md R20, R22, R29, R30), its response channel, the host's side of the
ports as a list of clock edges, and the two ways a step can stop. -/

namespace Sys2Proof.Machine

/-- The contents of the bit array `B`: the non-zero bytes as pairs of byte index and byte, in the canonical form
`Memory.wf`. A byte that is not listed is 0x00, its value after a reset event (R30). -/
abbrev Memory := List Host.Cell

/-- The canonical form: byte indices strictly rising, and no listed byte equal to 0x00, what an unlisted one reads as. -/
abbrev Memory.wf (m : Memory) : Prop :=
  m.Pairwise (fun a b => a.1 < b.1) ∧ ∀ c ∈ m, c.2 ≠ 0#8

/-- The error codes of R170. -/
inductive ErrCode where
  /-- Code 0: `ADD`, `CHECK` and `LEN`, always. -/
  | none
  /-- Code 1: a command word with op 0b11. -/
  | illegalCommand
  deriving DecidableEq, Repr

/-- One response, the triple `respond(err, hit, cnt)` of R64. -/
structure Response where
  /-- `rsp_err` (R170). -/
  err : ErrCode
  /-- `rsp_hit`: the verdict of `CHECK`, 0 for every other command. -/
  hit : Bool
  /-- `rsp_count`: the counter for `LEN`, 0 for every other command; a `CW`-bit value held as a natural. -/
  count : Nat
  deriving DecidableEq, Repr

/-- The wires at one rising edge of `clk` (R60). The first five are the host's inputs. The last two are what the spec
leaves to the implementation's timing (R62, R212, W5): they stand in the list of edges, so every statement about all
lists holds whatever the block's timing is. -/
structure Edge where
  /-- `rst`: the edge is a reset event (R200). -/
  rst : Bool
  /-- `cmd_valid`. -/
  cmdValid : Bool
  /-- `cmd_op`. -/
  cmdOp : BitVec 2
  /-- `cmd_hash`. -/
  cmdHash : BitVec 64
  /-- `rsp_ready`. -/
  rspReady : Bool
  /-- `cmd_ready` as the block drives it at this edge: any value (R62). -/
  cmdReady : Bool
  /-- Whether the block is done with its oldest unanswered command, and raises `rsp_valid` after this edge: any value
  (R14, R212). -/
  rspOffer : Bool
  deriving DecidableEq, Repr

/-- What happens to the block from outside. -/
inductive Event where
  /-- A rising edge of `clk` with these wires. -/
  | edge (e : Edge)
  /-- Power is lost and comes back: a return to power-up (R29, R184). The array then holds any bytes and the counter any
  value; the event carries them, and no command reads them before the next reset event. -/
  | powerLoss (bytes : List Byte) (count : Nat)
  deriving DecidableEq, Repr

/-- The state of the block. `mem`, `count`, `initialised`, `rspValid` and `pending` are the spec's; `build` is the build's
constants, which no step writes; `input` and `delivered` are the model's own account of the host. -/
structure State where
  /-- The build constants (R8, R13): carried here so that one machine covers every build; never written (R31 (a)). -/
  build : Build
  /-- The bit array `B` (R21). -/
  mem : Memory
  /-- The insertion counter, a `CW`-bit value held as a natural (R22). -/
  count : Nat
  /-- Whether a reset event has happened since power-up (R29). -/
  initialised : Bool
  /-- The response channel's `rsp_valid` (R30, R65). -/
  rspValid : Bool
  /-- Responses of accepted commands that the host has not taken, oldest first (R64, R203). -/
  pending : List Response
  /-- Responses that the host has taken, oldest first (model's own; R203 "already transferred stand"). -/
  delivered : List Response
  /-- What is still to happen at the ports, the next clock edge first (model's own; R25, R206). -/
  input : List Event
  deriving DecidableEq, Repr

/-- Why the machine stops with a fault. -/
inductive Fault where
  /-- Raised by `memRead` and `memWrite` for a byte index that is not below `L`, an address the spec says does not exist
  (R44). Safe. The indexer makes no such address (R104), so no command raises it. -/
  | outOfArray (j : Nat)
  deriving DecidableEq, Repr

/-- Why the machine gives something no meaning. -/
inductive Refusal where
  /-- An instruction with no meaning yet; raised by `exec`'s arms only, and by none of them. Safe. -/
  | notModelled (mnemonic : String)
  /-- Raised by every command before the first reset event after power-up (R29, D18). Safe. -/
  | notInitialised
  /-- Raised by every command and event of a configuration with `SIZE_IN_BITS < 8` or `CW = 0`, which is not this
  hardware (R10, R13, R172). Safe. -/
  | illegalBuild
  deriving DecidableEq, Repr

/-- The machine right after a reset event (R30, R200), of any build: every byte 0x00, the counter 0, initialised, the
response channel idle, nothing pending. No input is placed. -/
def State.ofBuild (b : Build) : State :=
  { build := b, mem := [], count := 0, initialised := true, rspValid := false, pending := [], delivered := [],
    input := [] }

/-- The machine right after reset, in the reference configuration (R8, R13). -/
def State.reset : State := State.ofBuild Build.reference

end Sys2Proof.Machine
end

