-- ==== Sys2Proof/Machine/Ops.lean ====
section
/-! DEFINITION. The named operations over the bit array, the counter, the response channel and reset. -/

namespace Sys2Proof

/-! ### The sizes of a build -/

/-- `L = SIZE_IN_BITS div 8`, the bytes of the array, remainder dropped (R9, D7). -/
abbrev Build.byteLen (b : Build) : Nat := b.sizeInBits / 8

/-- `M = 8 * L`, the bits of the array, in unbounded arithmetic (R9, R101). -/
abbrev Build.bitLen (b : Build) : Nat := 8 * b.byteLen

end Sys2Proof

namespace Sys2Proof.Machine

/-! ### Bytes and bits of the array -/

/-- The byte at index `j`: the listed one, else 0x00 (R30). -/
def byteAt : Memory → Nat → Byte
  | [], _ => 0#8
  | c :: rest, j => if c.1 = j then c.2 else byteAt rest j

/-- Put a cell in front of the first cell with a higher byte index. -/
def insertCell (c : Host.Cell) : Memory → Memory
  | [] => [c]
  | d :: rest => if c.1 < d.1 then c :: d :: rest else d :: insertCell c rest

/-- `B[j] <- v` on the canonical form: the old cell goes, and a cell is listed only for a non-zero byte. -/
def setByteAt (m : Memory) (j : Nat) (v : Byte) : Memory :=
  let rest := m.filter (fun c => c.1 != j)
  if v = 0#8 then rest else insertCell (j, v) rest

/-- `bit(p) = (B[p div 8] >> (7 - (p mod 8))) & 1`, most-significant-bit first (R42). -/
def bitAt (m : Memory) (p : Nat) : Bool :=
  (byteAt m (p / 8) >>> (7 - p % 8)) &&& 1#8 == 1#8

/-- An array holding the given bytes from index `j` up. -/
def memoryOf : List Byte → Nat → Memory
  | [], _ => []
  | b :: bs, j => setByteAt (memoryOf bs (j + 1)) j b

/-- `MemRead(j, 1)` (R44): requires `j < L`. -/
def memRead (s : State) (j : Nat) : Except Fault Byte :=
  if j < s.build.byteLen then .ok (byteAt s.mem j) else .error (.outOfArray j)

/-- `MemWrite(j, 1, v)` (R44): requires `j < L`. -/
def memWrite (s : State) (j : Nat) (v : Byte) : Except Fault State :=
  if j < s.build.byteLen then .ok { s with mem := setByteAt s.mem j v } else .error (.outOfArray j)

/-! ### The counter and the responses -/

/-- `count <- (count + 1) mod 2^CW` (R132). -/
def countUp (s : State) : State := { s with count := (s.count + 1) % 2 ^ s.build.cw }

/-- `respond(err, hit, cnt)`: the one response of a command, behind the earlier ones (R64, R65). -/
def respond (s : State) (r : Response) : State := { s with pending := s.pending ++ [r] }

/-- `raise IllegalCommand` (R17, R171, R177): change no state and respond (1, 0, 0). This is the whole of the block's
exception entry: nothing is saved, no mode changes and control goes nowhere, so there is no return either (R179). -/
def raiseIllegalCommand (s : State) : State :=
  respond s { err := .illegalCommand, hit := false, count := 0 }

/-- The value of `rsp_err` (R170). -/
def errBit : ErrCode → Bool
  | .none => false
  | .illegalCommand => true

/-- The packed response word `RSP[CW+1:0] = {rsp_err, rsp_hit, rsp_count}` (R64). -/
def packResponse (cw : Nat) (r : Response) : BitVec (1 + 1 + cw) :=
  BitVec.ofBool (errBit r.err) ++ BitVec.ofBool r.hit ++ BitVec.ofNat cw r.count

/-! ### When a command has a meaning -/

/-- Refuse a configuration that is not this hardware (R10, R13, R172). -/
def onLegalBuild (s : State) (k : Host.Outcome State Fault Refusal) : Host.Outcome State Fault Refusal :=
  if s.build.legal then k else .refused .illegalBuild

/-- Refuse a command before the first reset event (R29), and any command of an illegal build (R10). -/
def whenReady (s : State) (k : Host.Outcome State Fault Refusal) : Host.Outcome State Fault Refusal :=
  onLegalBuild s (if s.initialised then k else .refused .notInitialised)

/-! ### Reset and power -/

/-- A reset event, in full (R200): all bytes 0x00, counter 0, initialised, every unanswered command dropped (R203),
`rsp_valid` 0. Responses already taken stand. -/
def resetEvent (s : State) : State :=
  { s with mem := [], count := 0, initialised := true, rspValid := false, pending := [] }

/-- A return to power-up (R29, R184): not initialised, the response channel idle (R30), the array and the counter at any
values: `bytes` (as far as the array reaches) and `n` are unconstrained. -/
def powerUp (bytes : List Byte) (n : Nat) (s : State) : State :=
  { s with mem := memoryOf (bytes.take s.build.byteLen) 0, count := n % 2 ^ s.build.cw, initialised := false,
           rspValid := false, pending := [] }

/-! ### The response channel -/

/-- The response fields the host may read: they have a value only while `rsp_valid` is 1 (R65, W3). -/
def responsePort (s : State) : Option Response := if s.rspValid then s.pending.head? else none

/-- The host takes the offered response (R64). -/
def takeResponse (s : State) : State :=
  match s.pending with
  | [] => s
  | r :: rs => { s with pending := rs, delivered := s.delivered ++ [r], rspValid := false }

/-- The block raises `rsp_valid` once its oldest unanswered command is done, and holds it until the transfer (R65). -/
def offerResponse (done : Bool) (s : State) : State :=
  { s with rspValid := s.rspValid || (done && !s.pending.isEmpty) }

end Sys2Proof.Machine
end

