-- ==== Sys2Proof/Machine/Operands.lean ====
section
/-! DEFINITION. hash_fragment_extractor (40), bit_array_indexer (41), and the SET half of parallel_bit_setter (42). -/

namespace Sys2Proof.Machine

/-- `f_i = (h >> (16*i)) & 0xFFFF` (R90). -/
def fragment (h : Hash) (i : Nat) : Fragment := ((h >>> (16 * i)) &&& 0xFFFF#64).setWidth 16

/-- What bit_array_indexer outputs for one fragment (R100). -/
structure Lane where
  /-- `p`, the bit position. -/
  position : Nat
  /-- `j`, the byte index. -/
  byteIndex : Nat
  /-- `k`, the bit within the byte, counted from the most significant. -/
  bitInByte : Nat
  /-- `m`, the one-hot mask. -/
  mask : Byte
  deriving DecidableEq, Repr

/-- bit_array_indexer (R100), with the exact modulus `8 * L` (R101). -/
def index (b : Build) (x : Fragment) : Lane :=
  let wrap := 8 * b.byteLen
  let p := x.toNat % wrap
  let j := p / 8
  let k := p % 8
  { position := p, byteIndex := j, bitInByte := k, mask := 1#8 <<< (7 - k) }

/-- The four lanes of an operand, lane 0 first (R92, R110): the same four for `ADD` and for `CHECK`. -/
def lanesOf (b : Build) (h : Hash) : List Lane :=
  [index b (fragment h 0), index b (fragment h 1), index b (fragment h 2), index b (fragment h 3)]

/-- The four bit positions `p_0 .. p_3` of an operand (R110). -/
def positionsOf (b : Build) (h : Hash) : List Nat := (lanesOf b h).map Lane.position

/-- `acc(j)`: the OR of the masks of the lanes that address byte `j`, 0x00 when none does (R116). -/
def laneAcc : List Lane → Nat → Byte
  | [], _ => 0#8
  | l :: ls, j => (if l.byteIndex = j then l.mask else 0#8) ||| laneAcc ls j

/-- For each byte index of the list: `MemWrite(j, 1, MemRead(j, 1) | acc(j))` (R116). -/
def orBytes (acc : Nat → Byte) : List Nat → State → Except Fault State
  | [], s => .ok s
  | j :: js, s =>
    match memRead s j with
    | .error f => .error f
    | .ok b =>
      match memWrite s j (b ||| acc j) with
      | .error f => .error f
      | .ok s' => orBytes acc js s'

/-- SET (R116): every distinct byte that a lane addresses is written once, with the masks of its lanes merged (R118). -/
def setLanes (ls : List Lane) (s : State) : Except Fault State :=
  orBytes (laneAcc ls) (ls.map Lane.byteIndex).dedup s

/-- The lanes applied one after another, each reading the array left by the one before: what SET equals, in any order
(R118). -/
def setOneByOne : List Lane → State → Except Fault State
  | [], s => .ok s
  | l :: ls, s =>
    match memRead s l.byteIndex with
    | .error f => .error f
    | .ok b =>
      match memWrite s l.byteIndex (b ||| l.mask) with
      | .error f => .error f
      | .ok s' => setOneByOne ls s'

end Sys2Proof.Machine
end

