-- ==== Sys2Proof/Machine/Insert.lean ====
section
/-! DEFINITION. The ADD command (43_cmd_add.md). -/

namespace Sys2Proof.Machine

/-- `ADD h` (R130): SET the four lanes of `h`, count up whatever the array held (R132), respond (0, 0, 0) (R133). -/
def execAdd (h : BitVec 64) (s : State) : Host.Outcome State Fault Refusal :=
  whenReady s <|
    match setLanes (lanesOf s.build h) s with
    | .error f => .fault f
    | .ok s' => .next (respond (countUp s') { err := .none, hit := false, count := 0 })

end Sys2Proof.Machine
end

