-- ==== Sys2Proof/Machine/Flags.lean ====
section
/-! DEFINITION. The block stores no flag (10_state.md R26). The one Boolean a command computes is the verdict of TEST
(42_parallel_bit_setter.md R119), and the source's two implicit states are predicates. -/

namespace Sys2Proof.Machine

/-- TEST (R119): `t_i = (B[j_i] & m_i) != 0` for each lane, and their conjunction. The order of the probes and an early
exit cannot be observed (R142). -/
def testLanes : List Lane → State → Except Fault Bool
  | [], _ => .ok true
  | l :: ls, s =>
    match memRead s l.byteIndex with
    | .error f => .error f
    | .ok b =>
      match testLanes ls s with
      | .error f => .error f
      | .ok t => .ok ((b &&& l.mask != 0#8) && t)

/-- "All bits 0": what the source's state "empty" and only it satisfies after a reset event (R26). -/
def arrayAllZero (s : State) : Prop := ∀ j, j < s.build.byteLen → byteAt s.mem j = 0#8

end Sys2Proof.Machine
end

