-- ==== Sys2Proof/Machine/Query.lean ====
section
/-! DEFINITION. The CHECK and LEN commands (44_cmd_query.md). -/

namespace Sys2Proof.Machine

/-- `CHECK h` (R140): respond (0, hit, 0) with the verdict of TEST on the four lanes of `h`; nothing else changes (R141). -/
def execCheck (h : BitVec 64) (s : State) : Host.Outcome State Fault Refusal :=
  whenReady s <|
    match testLanes (lanesOf s.build h) s with
    | .error f => .fault f
    | .ok hit => .next (respond s { err := .none, hit := hit, count := 0 })

/-- `LEN` (R145): respond (0, 0, count); the operand bits are ignored (R69). -/
def execLen (_ignored : BitVec 64) (s : State) : Host.Outcome State Fault Refusal :=
  whenReady s (.next (respond s { err := .none, hit := false, count := s.count }))

end Sys2Proof.Machine
end

