-- ==== Sys2Proof/Machine/Reserved.lean ====
section
/-! DEFINITION. The reserved opcode (60_exceptions.md R171). -/

namespace Sys2Proof.Machine

/-- Op 0b11 (R171): an ordinary command whose effect is to raise `IllegalCommand`, for every value of its low 64 bits. -/
def execIllegal (_ignored : BitVec 64) (s : State) : Host.Outcome State Fault Refusal :=
  whenReady s (.next (raiseIllegalCommand s))

end Sys2Proof.Machine
end

