-- ==== Sys2Proof/Machine/Dispatch.lean ====
section
/-! DEFINITION. One arm per command. -/

namespace Sys2Proof.Machine

def exec (i : Instr) (s : State) : Host.Outcome State Fault Refusal :=
  match i with
  | .len x => Sys2Proof.Machine.execLen x s
  | .add h => Sys2Proof.Machine.execAdd h s
  | .check h => Sys2Proof.Machine.execCheck h s
  | .illegal x => Sys2Proof.Machine.execIllegal x s

end Sys2Proof.Machine
end

