-- ==== Sys2Proof/Machine/Port.lean ====
section
/-! DEFINITION. What happens at one rising clock edge (30_encoding.md R60 to R65, 70_reset_and_hazards.md R200 to R203). -/

namespace Sys2Proof.Machine

/-- The command word on the wires, `{cmd_op, cmd_hash}` (R66). -/
def wordOnWires (e : Edge) : CommandWord := e.cmdOp ++ e.cmdHash

/-- A command is accepted on an edge with `rst = 0`, `cmd_valid = 1` and `cmd_ready = 1` (R62). -/
def accepts (e : Edge) : Bool := !e.rst && e.cmdValid && e.cmdReady

/-- A response is transferred on an edge with `rst = 0`, `rsp_valid = 1` and `rsp_ready = 1` (R64). -/
def transfers (e : Edge) (s : State) : Bool := !e.rst && s.rspValid && e.rspReady

/-- The response channel's part of an edge without reset: a transfer, if there is one. -/
def responseSide (e : Edge) (s : State) : State := if transfers e s then takeResponse s else s

/-- Apply a change to the next state of an outcome. -/
def mapNext (f : State → State) : Host.Outcome State Fault Refusal → Host.Outcome State Fault Refusal
  | .next s => .next (f s)
  | .fault r => .fault r
  | .refused r => .refused r

/-- One rising edge of the clock. A reset event wins over everything else on its edge (R176, R202). Otherwise an offered
response may be transferred, and an accepted command executes as one atomic step in acceptance order (R48); the two
concern different commands and do not interact (R176). -/
def clockEdge (e : Edge) (s : State) : Host.Outcome State Fault Refusal :=
  if e.rst then .next (resetEvent s)
  else
    mapNext (offerResponse e.rspOffer)
      (if accepts e then exec (decode (wordOnWires e)) (responseSide e s) else .next (responseSide e s))

/-- One event at the ports, on a build that is this hardware (R10). -/
def handleEvent (ev : Event) (s : State) : Host.Outcome State Fault Refusal :=
  onLegalBuild s <|
    match ev with
    | .edge e => clockEdge e s
    | .powerLoss bytes n => .next (powerUp bytes n s)

/-- The next event, taken from the list; when the list is empty nothing happens at the ports and the state stays as it
is (R184: a stopped clock preserves the state; R68: an idle cycle is no command). -/
def nextEvent (s : State) : Host.Outcome State Fault Refusal :=
  match s.input with
  | [] => .next s
  | ev :: rest => handleEvent ev { s with input := rest }

/-- The edge on which the host offers a command word, the block takes it, and nothing else happens. -/
def offerEdge (w : CommandWord) : Edge :=
  { rst := false, cmdValid := true, cmdOp := w.extractLsb' 64 2, cmdHash := w.extractLsb' 0 64, rspReady := false,
    cmdReady := true, rspOffer := false }

/-- An edge with `rst = 1` and every other wire 0. -/
def resetEdge : Edge :=
  { rst := true, cmdValid := false, cmdOp := 0#2, cmdHash := 0#64, rspReady := false, cmdReady := false,
    rspOffer := false }

end Sys2Proof.Machine
end

