-- ==== Sys2Proof/Machine/Step.lean ====
section
/-! DEFINITION. The step of the machine: the next event at its ports. -/

namespace Sys2Proof.Machine

/-- One step: the next clock edge, or loss of power, of the list that stands for the host. -/
def step (s : State) : Host.Outcome State Fault Refusal := nextEvent s

/-- `s` with one more clock edge in front of its input: the one on which the command word `w` (its low `nbits` bits, the
rest 0) is offered and accepted. Nothing else changes. -/
def State.withFetchWord (s : State) (nbits w : Nat) : State :=
  { s with input := .edge (offerEdge (BitVec.ofNat 66 (w % 2 ^ nbits))) :: s.input }

end Sys2Proof.Machine
end

