-- ==== Sys2Proof/Machine/Run.lean ====
section
/-! DEFINITION. Runs: the fold of the step over the accepted commands (20_memory.md R48, 70_reset_and_hazards.md R206,
R211), and what a list of clock edges accepts. -/

namespace Sys2Proof.Machine

/-- The left fold of the commands' steps, in acceptance order, stopping at a fault or a refusal (R48). -/
def runCommands : List Instr → State → Host.Outcome State Fault Refusal
  | [], s => .next s
  | i :: rest, s =>
    match exec i s with
    | .next t => runCommands rest t
    | .fault f => .fault f
    | .refused r => .refused r

/-- One entry of a run (R206): an accepted command or a reset event. -/
inductive RunItem where
  /-- A reset event. -/
  | reset
  /-- An accepted command. -/
  | command (i : Instr)
  deriving DecidableEq, Repr

/-- The fold over accepted commands and reset events, with no ports and no time (R48, R51, R211). -/
def runItems : List RunItem → State → Host.Outcome State Fault Refusal
  | [], s => .next s
  | .reset :: rest, s => onLegalBuild s (runItems rest (resetEvent s))
  | .command i :: rest, s =>
    match exec i s with
    | .next t => runItems rest t
    | .fault f => .fault f
    | .refused r => .refused r

/-- What one event contributes to a run: a reset event, an accepted command, or nothing. -/
def itemsOfEvent : Event → List RunItem
  | .edge e => if e.rst then [.reset] else if accepts e then [.command (decode (wordOnWires e))] else []
  | .powerLoss _ _ => []

/-- What a list of events contributes to a run, in order. -/
def itemsOf (evs : List Event) : List RunItem := evs.flatMap itemsOfEvent

/-- Whether an event is a clock edge. -/
def isEdge : Event → Bool
  | .edge _ => true
  | .powerLoss _ _ => false

/-- Whether an event is a reset event. -/
def isReset : Event → Bool
  | .edge e => e.rst
  | .powerLoss _ _ => false

/-- Let the events happen one after another, from a state whose own input is set aside. -/
def runEvents (evs : List Event) (s : State) : Host.Outcome State Fault Refusal :=
  Host.Core.run Sys2Proof.core evs.length { s with input := evs }

/-- Every response of a state in acceptance order: those taken, then those not yet taken (R65). -/
def allResponses (s : State) : List Response := s.delivered ++ s.pending

end Sys2Proof.Machine
end

