-- ==== Sys2Proof/Machine/Words.lean ====
section
/-! DEFINITION. Word-level operations through the open parameter HASH64 (45_word_level_and_laws.md R150 to R152,
30_encoding.md R74). -/

namespace Sys2Proof.Machine

/-- `ADDW s = ADD HASH64(BYTES(s))` (R151); every byte sequence is a word, the empty one too (R152). -/
def addWord (hash64 : Hash64) (bytes : List Byte) : Instr := .add (hash64 bytes)

/-- `CHECKW s = CHECK HASH64(BYTES(s))` (R151). -/
def checkWord (hash64 : Hash64) (bytes : List Byte) : Instr := .check (hash64 bytes)

/-- `NEW n` (R74): a build with `SIZE_IN_BITS = n` and the default counter width, followed by a reset event; no such
build exists for `n < 8` (R10). -/
def newFilter (n : Nat) : Option State :=
  let b : Build := { sizeInBits := n, cw := Build.reference.cw }
  if b.legal then some (State.ofBuild b) else none

end Sys2Proof.Machine
end

