-- ==== Sys2Proof/Machine/Assembler.lean ====
section
/-! DEFINITION. The textual form of a run: one item a line (30_encoding.md R73), and the pseudo-commands (R74). -/

namespace Sys2Proof.Machine

/-- An item of R73. -/
inductive AsmItem where
  /-- `RESET`: a reset event, not a command word. -/
  | reset
  /-- `ADD 0x<1 to 16 hex digits>`. -/
  | add (h : Hash)
  /-- `CHECK 0x<1 to 16 hex digits>`. -/
  | check (h : Hash)
  /-- `LEN`. -/
  | len
  /-- `.illegal 0x<hex>`. -/
  | illegal (x : BitVec 64)
  deriving DecidableEq, Repr

/-- The response written after `->` (R73). -/
inductive Expected where
  /-- `-> ok`: the response of `ADD`. -/
  | ok
  /-- `-> hit=0` or `-> hit=1`: the response of `CHECK`. -/
  | hit (b : Bool)
  /-- `-> count=<n>`: the response of `LEN`. -/
  | count (n : Nat)
  /-- `-> err`: the response of the reserved opcode. -/
  | err
  deriving DecidableEq, Repr

/-- The response that an expectation names, all fields (R64). -/
def Expected.response : Expected → Response
  | .ok => { err := .none, hit := false, count := 0 }
  | .hit b => { err := .none, hit := b, count := 0 }
  | .count n => { err := .none, hit := false, count := n }
  | .err => { err := .illegalCommand, hit := false, count := 0 }

/-- The command word of an item, in canonical form; `RESET` has none (R73). -/
def itemWord : AsmItem → Option CommandWord
  | .reset => none
  | .add h => some (0b01#2 ++ h)
  | .check h => some (0b10#2 ++ h)
  | .len => some (0b00#2 ++ 0#64)
  | .illegal x => some (0b11#2 ++ x)

/-- The edge at which an item happens. -/
def itemEvent (a : AsmItem) : Event :=
  match itemWord a with
  | none => .edge resetEdge
  | some w => .edge (offerEdge w)

/-- A word-level pseudo-command (R74). `NEW n` is `newFilter`: a build, not something a running block does. -/
inductive PseudoItem where
  /-- `ADDW "s"`, on the bytes of `s`. -/
  | addw (bytes : List Byte)
  /-- `CHECKW "s"`, on the bytes of `s`. -/
  | checkw (bytes : List Byte)
  deriving DecidableEq, Repr

/-- The expansion of a pseudo-command once `HASH64` is supplied (R74). -/
def expandPseudo (hash64 : Hash64) : PseudoItem → AsmItem
  | .addw bytes => .add (hash64 bytes)
  | .checkw bytes => .check (hash64 bytes)

/-! ### Reading a line -/

/-- A line without its comment: `;` starts one. -/
def withoutComment (line : List Char) : List Char := line.takeWhile (fun c => c != ';')

/-- Split at spaces and tabs, keeping empty pieces. -/
def splitBlanks : List Char → List (List Char)
  | [] => [[]]
  | c :: cs =>
    if c == ' ' || c == '\t' then [] :: splitBlanks cs
    else
      match splitBlanks cs with
      | [] => [[c]]
      | w :: ws => (c :: w) :: ws

/-- The words of a line in lower case: mnemonics are case-insensitive (R73). DESIGN CHOICE, log entry 15: the whole line is
lower-cased, so the prefix, the digits and the expectation may be written in either case too. -/
def lineWords (line : List Char) : List (List Char) :=
  (splitBlanks ((withoutComment line).map Char.toLower)).filter (fun w => !w.isEmpty)

/-- The value of a lower-case digit, if it is one of the given base. -/
def digitValue (base : Nat) (c : Char) : Option Nat :=
  let n := c.toNat
  let d := if 48 ≤ n && n ≤ 57 then n - 48 else if 97 ≤ n && n ≤ 102 then n - 87 else base
  if d < base then some d else none

/-- The number that the digits write, most significant first. -/
def digitsValue (base : Nat) : List Char → Nat → Option Nat
  | [], acc => some acc
  | c :: cs, acc =>
    match digitValue base c with
    | none => none
    | some d => digitsValue base cs (acc * base + d)

/-- `0x` and 1 to 16 hex digits, zero-extended to 64 bits. -/
def readHex : List Char → Option (BitVec 64)
  | '0' :: 'x' :: ds =>
    if ds.isEmpty || 16 < ds.length then none else (digitsValue 16 ds 0).map (BitVec.ofNat 64)
  | _ => none

/-- An item without its expectation. -/
def readItem : List (List Char) → Option AsmItem
  | [['r', 'e', 's', 'e', 't']] => some .reset
  | [['l', 'e', 'n']] => some .len
  | [['a', 'd', 'd'], t] => (readHex t).map .add
  | [['c', 'h', 'e', 'c', 'k'], t] => (readHex t).map .check
  | [['.', 'i', 'l', 'l', 'e', 'g', 'a', 'l'], t] => (readHex t).map .illegal
  | _ => none

/-- What stands after `->`. -/
def readExpected : List (List Char) → Option Expected
  | [['o', 'k']] => some .ok
  | [['e', 'r', 'r']] => some .err
  | [['h', 'i', 't', '=', '0']] => some (.hit false)
  | [['h', 'i', 't', '=', '1']] => some (.hit true)
  | [('c' :: 'o' :: 'u' :: 'n' :: 't' :: '=' :: ds)] =>
    if ds.isEmpty then none else (digitsValue 10 ds 0).map .count
  | _ => none

/-- One line: no item for a blank or comment line, one item with its expectation if it has one, and nothing (`none`) for
a line that R73 does not give. DESIGN CHOICE, log entry 15, where R73 says no more than its table: letter case is free
everywhere (a prefix `0X`, an expectation `OK` or `HIT=1` are read), and the reader does not tie an expectation to its item
(`ADD 0x1 -> hit=1` and `RESET -> ok` are read, as lines whose expectation no run meets). Safe: text is outside the block. -/
def readLine (line : List Char) : Option (List (AsmItem × Option Expected)) :=
  let ws := lineWords line
  let before := ws.takeWhile (fun w => w != ['-', '>'])
  let after := ws.drop before.length
  match before, after with
  | [], [] => some []
  | _, [] => (readItem before).map (fun a => [(a, none)])
  | _, _ :: e =>
    match readItem before, readExpected e with
    | some a, some x => some [(a, some x)]
    | _, _ => none

end Sys2Proof.Machine
end

