-- ==== Sys2Proof/Safety.lean ====
section
/-! DEFINITION. What claims are stated in: a state in which commands have a meaning, the invariant of the machine, and the
host's side of the contract (70_reset_and_hazards.md R205, R214). -/

namespace Sys2Proof.Machine

/-- A build that is this hardware, after a reset event: the state in which every command has its meaning (R10, R29). -/
abbrev Ready (s : State) : Prop := s.build.legal = true ∧ s.initialised = true

/-- A response that R64 allows for some command on a build with counter width `cw`: only `LEN` shows a count and only
`CHECK` a hit, an error shows neither (R64), and the count is a `CW`-bit value (R13). -/
abbrev ResponseWf (cw : Nat) (r : Response) : Prop :=
  r.count < 2 ^ cw ∧ (r.err = .illegalCommand → r.hit = false ∧ r.count = 0) ∧ (r.hit = true → r.count = 0)

/-- The invariant of the machine: the array is in canonical form and inside its `L` bytes, the counter is a `CW`-bit value
(R22), after a reset event no byte from index 8192 up is set (R32), `rsp_valid` is 1 only over a response that waits
(R65), and every response is one that R64 allows. -/
structure Inv (s : State) : Prop where
  /-- The array is in canonical form. -/
  memWf : Memory.wf s.mem
  /-- Every listed byte exists (R40). -/
  memInArray : ∀ c ∈ s.mem, c.1 < s.build.byteLen
  /-- Bytes from 8192 up stay 0x00 (R32). -/
  memReachable : s.initialised = true → ∀ c ∈ s.mem, c.1 < 8192
  /-- The counter fits `CW` bits (R22). -/
  countWf : s.count < 2 ^ s.build.cw
  /-- `rsp_valid` implies a response to show (R65). -/
  offerWf : s.rspValid = true → s.pending ≠ []
  /-- Responses not yet taken. -/
  pendingWf : ∀ r ∈ s.pending, ResponseWf s.build.cw r
  /-- Responses taken. -/
  deliveredWf : ∀ r ∈ s.delivered, ResponseWf s.build.cw r

/-- Whether a command is an `ADD`, the only one that writes the array or the counter (R21, R22). -/
def isAdd : Instr → Bool
  | .len _ => false
  | .add _ => true
  | .check _ => false
  | .illegal _ => false

/-- The indices of the bytes that a command may write: those its lanes address for `ADD` (R116, R130), none for any other
command (R120, R141, R145, R171). -/
def writtenBytes (b : Build) : Instr → List Nat
  | .len _ => []
  | .add h => (lanesOf b h).map Lane.byteIndex
  | .check _ => []
  | .illegal _ => []

/-- `h` is a hit on the array of `s`: all four of its bits are 1 (R140). -/
abbrev Hit (s : State) (h : Hash) : Prop := ∀ p ∈ positionsOf s.build h, bitAt s.mem p = true

/-- The step of a safe run answers a next state. -/
def answersNext : Host.Outcome State Fault Refusal → Bool
  | .next _ => true
  | .fault _ => false
  | .refused _ => false

/-- Whether a block that is (`ready = true`) or is not yet reset is only ever given commands after a reset event: the
host's boot duty (R205). Losing power takes the block back to before its first reset event (R29). -/
def bootsFirst : Bool → List Event → Bool
  | _, [] => true
  | _, .powerLoss _ _ :: rest => bootsFirst false rest
  | ready, .edge e :: rest => if e.rst then bootsFirst true rest else (ready || !accepts e) && bootsFirst ready rest

/-- Whether a command that is offered on one edge and not accepted there stands unchanged on the next: the host holds it
until it is accepted (R62, R214). DEDUCED, log entry 17: an edge with `rst = 1` is no exception, since R62 names none and
R203 voids accepted commands only; and as nothing is accepted on such an edge, the command is held across it whatever
`cmd_ready` is there. Safe: the duty is a premise and never a part of the step. -/
def holdsAcross (e e' : Edge) : Bool :=
  !e.cmdValid || accepts e || (e'.cmdValid && e'.cmdOp == e.cmdOp && e'.cmdHash == e.cmdHash)

/-- The host holds a waiting command unchanged, from each edge to the next, until it is accepted (R62, R214). DESIGN CHOICE,
log entry 17: across a loss of power nothing is asked, since the spec is silent and the block is back before its first reset
event (R29, R184); nor after the last event of the list. Safe: fewer duties admit more hosts. -/
def holdsCommand : List Event → Bool
  | [] => true
  | .powerLoss _ _ :: rest => holdsCommand rest
  | .edge e :: rest =>
    (match rest with
     | .edge e' :: _ => holdsAcross e e'
     | _ => true) && holdsCommand rest

/-- The host never issues the reserved opcode (R68, R214). -/
def issuesNoReserved : List Event → Bool
  | [] => true
  | .powerLoss _ _ :: rest => issuesNoReserved rest
  | .edge e :: rest => (!accepts e || e.cmdOp != 0b11#2) && issuesNoReserved rest

/-- The host's side of the contract of R214, as far as a list of events can keep or break it: the boot duty, the duty to
hold a waiting command (with the readings of log entry 17), and no reserved opcode. No rule of the block needs
it but the boot duty: the block's behaviour is defined whatever the host does afterwards (W1, W7). -/
def hostContract (ready : Bool) (evs : List Event) : Bool :=
  bootsFirst ready evs && holdsCommand evs && issuesNoReserved evs

end Sys2Proof.Machine
end

