-- ==== Sys2Proof/Certificates/Slice0/Obligations.lean ====
section
/-! DEFINITION. What is claimed of the machine, from the spec's rules. A statement over `State` holds for every build that
is legal, and in every state, reachable or not, that meets its premises. -/

open Sys2Proof Sys2Proof.Machine

/-! ### Encoding -/

/-- Decoding an encoded command gives it back, and so does the opcode table's numbering at any width that holds the word
(R66, R67). That `LEN` and the reserved opcode carry their ignored bits is the model's choice (DESIGN CHOICE, log entry 11). -/
def Obligations.DecodeEncodeRoundTrip : Prop :=
  ∀ (i : Instr) (nbits : Nat), i.wellFormed = true → 66 ≤ nbits →
    decode (encode i) = i ∧ decodeTableWord nbits (encode i).toNat = some i

/-- Every 66-bit word is the encoding of the command it decodes to: decoding is total (R67) and one to one. For `ADD` and
`CHECK` the rules give that; for `LEN` and the reserved opcode it is the model's choice (DESIGN CHOICE, log entry 11): their
constructors keep the 64 bits that R66 and R67 say are ignored. -/
def Obligations.EncodeDecodeRoundTrip : Prop :=
  ∀ w : CommandWord, encode (decode w) = w

/-- Each word matches the row of the command it decodes to and no other row (R67's match and mask pairs). -/
def Obligations.OpcodeRowsSelectTheCommand : Prop :=
  ∀ (w : CommandWord) (r : OpcodeRow), r ∈ opcodeRows →
    (rowMatches r w = true ↔ mnemonicOf (decode w) = r.mnemonic)

/-- Words written out from R66 and R67 decode to what they stand for. -/
def Obligations.WrittenWordsDecode : Prop :=
  decode 0x00000000000000000#66 = .len 0#64 ∧
  decode 0x08000000000000000#66 = .len 0x8000000000000000#64 ∧
  decode 0x10123456789ABCDEF#66 = .add 0x0123456789ABCDEF#64 ∧
  decode 0x20000000000000001#66 = .check 1#64 ∧
  decode 0x3FFFFFFFFFFFFFFFF#66 = .illegal 0xFFFFFFFFFFFFFFFF#64

/-! ### The step -/

/-- On an accepting edge the step executes the command decoded from the wires, on the state after the response channel's
own transfer, and then the block may raise `rsp_valid` (R48, R62, R176; the list of edges is the model's, log entry 2). -/
def Obligations.StepRunsTheDecodedCommand : Prop :=
  ∀ (s : State) (e : Edge) (rest : List Event) (i : Instr),
    s.build.legal = true → s.input = .edge e :: rest → e.rst = false → e.cmdValid = true → e.cmdReady = true →
    decode (e.cmdOp ++ e.cmdHash) = i →
    step s = mapNext (offerResponse e.rspOffer) (exec i (responseSide e { s with input := rest }))

/-- A command placed where the step takes its next event runs next, and is exactly `exec` (log entry 2). -/
def Obligations.PlacedCommandRunsNext : Prop :=
  ∀ (s : State) (i : Instr) (nbits : Nat), s.build.legal = true → 66 ≤ nbits →
    step (s.withFetchWord nbits (encode i).toNat) = exec i s

/-- With nothing left to happen at the ports the state stays as it is (R184; the model's choice, log entry 2). -/
def Obligations.NoInputKeepsTheState : Prop :=
  ∀ s : State, s.input = [] → step s = .next s

/-! ### Reset and power -/

/-- An edge with `rst = 1` is a reset event whatever the other wires are: nothing is accepted or transferred, everything
unanswered is dropped, and the array, the counter and the response channel are at their reset values (R62, R176, R200, R203). -/
def Obligations.ResetEdgeConstructs : Prop :=
  ∀ (s : State) (e : Edge) (rest : List Event),
    s.build.legal = true → s.input = .edge e :: rest → e.rst = true →
    ∃ t, step s = .next t ∧ (∀ j, byteAt t.mem j = 0#8) ∧ t.count = 0 ∧ t.initialised = true ∧ t.rspValid = false ∧
      t.pending = [] ∧ t.delivered = s.delivered ∧ t.build = s.build ∧ t.input = rest

/-- A second reset event in a row changes nothing (R202). -/
def Obligations.RepeatedResetIsOneReset : Prop :=
  ∀ (s : State) (e e' : Edge) (rest : List Event),
    s.build.legal = true → s.input = .edge e :: .edge e' :: rest → e.rst = true → e'.rst = true →
    ∃ t, step s = .next t ∧ step t = .next { t with input := rest }

/-- The values after reset (R30), in the reference configuration (R8: 64000 bits) with the default counter width (R13: 64).
That the reset state carries this build is the model's choice (DESIGN CHOICE, log entry 1, unsafe for a fact about this one
state): R8 and R13 make both sizes parameters of the block. -/
def Obligations.ResetStateValues : Prop :=
  State.reset.build.sizeInBits = 64000 ∧ State.reset.build.cw = 64 ∧
  (∀ j, byteAt State.reset.mem j = 0#8) ∧ State.reset.count = 0 ∧ State.reset.initialised = true ∧
  State.reset.rspValid = false ∧ State.reset.pending = []

/-- After a loss of power, whatever comes next, the array and the counter hold whatever they hold, no response is offered or
pending, the responses taken stand, and every command is refused (R29, R184). This lasts until a reset event: after any number
of edges on which nothing is accepted the state is still that one, the next edge that accepts a command is refused, and a reset
edge gives the empty filter. The idle response channel is R30's value before the first reset event. That a loss of power is an
event with free contents is the model's choice (log entry 5), and so is that a refusal ends the run (log entry 14). -/
def Obligations.PowerLossNeedsReset : Prop :=
  ∀ (s : State) (bytes : List Byte) (n : Nat) (rest : List Event),
    s.build.legal = true → s.input = .powerLoss bytes n :: rest →
    ∃ t, step s = .next t ∧ (∀ j, j < s.build.byteLen → byteAt t.mem j = bytes.getD j 0#8) ∧
      t.count = n % 2 ^ s.build.cw ∧ t.initialised = false ∧ t.rspValid = false ∧ t.pending = [] ∧
      t.delivered = s.delivered ∧ t.build = s.build ∧ t.input = rest ∧
      (∀ i, exec i t = .refused .notInitialised) ∧
      ∀ idle more, rest = idle ++ more →
        (∀ ev ∈ idle, ∃ e, ev = .edge e ∧ e.rst = false ∧ accepts e = false) →
        Host.Core.run Sys2Proof.core idle.length t = .next { t with input := more } ∧
        ∀ e more', more = .edge e :: more' →
          (accepts e = true → step { t with input := more } = .refused .notInitialised) ∧
          (e.rst = true → ∃ u, step { t with input := more } = .next u ∧ u.mem = [] ∧ u.count = 0 ∧ Ready u)

/-! ### hash_fragment_extractor -/

/-- Fragment `i` is bits `16*i` up to `16*i + 15` of the hash (R90). -/
def Obligations.FragmentsAreSixteenBitSlices : Prop :=
  ∀ (h : Hash) (i : Nat), i < 4 →
    (fragment h i).toNat = h.toNat / 2 ^ (16 * i) % 65536 ∧
    ∀ t, t < 16 → (fragment h i).getLsbD t = h.getLsbD (16 * i + t)

/-- The split loses and duplicates nothing (R91). -/
def Obligations.FragmentsReassembleTheHash : Prop :=
  ∀ h : Hash,
    h = fragment h 3 ++ fragment h 2 ++ fragment h 1 ++ fragment h 0 ∧
    h.toNat = (fragment h 0).toNat + (fragment h 1).toNat * 2 ^ 16 + (fragment h 2).toNat * 2 ^ 32
      + (fragment h 3).toNat * 2 ^ 48

/-! ### bit_array_indexer -/

/-- The outputs of the indexer, and the bit they address: bit `7 - k` of byte `j`, selected by the mask (R100, R41, R42). -/
def Obligations.IndexerOutputs : Prop :=
  ∀ (b : Build) (x : Fragment) (m : Memory), b.legal = true →
    (index b x).position = x.toNat % (8 * (b.sizeInBits / 8)) ∧
    (index b x).byteIndex = (index b x).position / 8 ∧
    (index b x).bitInByte = (index b x).position % 8 ∧
    (index b x).mask.toNat = 2 ^ (7 - (index b x).bitInByte) ∧
    bitAt m (index b x).position = (byteAt m (index b x).byteIndex).getLsbD (7 - (index b x).bitInByte) ∧
    (bitAt m (index b x).position = true ↔ byteAt m (index b x).byteIndex &&& (index b x).mask ≠ 0#8)

/-- The wrap is the true remainder: the one natural below `M` that differs from `x` by a multiple of `M`. In the reference
build it is `x` below 64000 and `x - 64000` from there (R102). -/
def Obligations.WrapIsTheTrueRemainder : Prop :=
  ∀ (b : Build) (x : Fragment), b.legal = true →
    (∀ p, (index b x).position = p ↔ p < b.bitLen ∧ ∃ q, x.toNat = q * b.bitLen + p) ∧
    (b.bitLen = 64000 → (index b x).position = if x.toNat < 64000 then x.toNat else x.toNat - 64000)

/-- Every address is inside the array (R103, R104), so the access primitives never find it out of range. -/
def Obligations.AddressesAreInRange : Prop :=
  ∀ (b : Build) (x : Fragment), b.legal = true →
    (index b x).position < min b.bitLen 65536 ∧ (index b x).byteIndex < b.byteLen ∧ (index b x).bitInByte ≤ 7 ∧
    (index b x).position = 8 * (index b x).byteIndex + (index b x).bitInByte ∧ (index b x).byteIndex ≤ 8191 ∧
    ∀ (s : State) (v : Byte), s.build = b →
      memRead s (index b x).byteIndex = .ok (byteAt s.mem (index b x).byteIndex) ∧
      ∃ t, memWrite s (index b x).byteIndex v = .ok t

/-- The mask has exactly one bit set, and its value is the one the table of R42 gives for `k` (R105). -/
def Obligations.MaskIsOneHot : Prop :=
  ∀ (b : Build) (x : Fragment),
    (index b x).bitInByte ≤ 7 ∧
    [0x80#8, 0x40#8, 0x20#8, 0x10#8, 0x08#8, 0x04#8, 0x02#8, 0x01#8][(index b x).bitInByte]? = some (index b x).mask ∧
    ∀ t, t < 8 → ((index b x).mask.getLsbD t = true ↔ t = 7 - (index b x).bitInByte)

/-- Two fragments that differ by a multiple of `M` address the same bit; below 65536 bits there are such fragments, from
65536 bits up there are none (R106, R107). -/
def Obligations.FragmentsAliasThroughTheWrap : Prop :=
  ∀ b : Build, b.legal = true →
    (∀ (x y : Fragment) (q : Nat), y.toNat = x.toNat + q * b.bitLen → index b y = index b x) ∧
    ((∃ x y : Fragment, x ≠ y ∧ index b x = index b y) ↔ b.bitLen < 65536)

/-- From 8192 bytes up the wrap does nothing (R107), every fragment addresses one of the first 8192 bytes, and the addresses
are those of the build with exactly 8192 bytes (R108). -/
def Obligations.LargeArraysAddressTheFirst8192Bytes : Prop :=
  ∀ (b : Build) (x : Fragment) (cw : Nat), 8192 ≤ b.byteLen →
    (index b x).position = x.toNat ∧ (index b x).byteIndex < 8192 ∧
    index b x = index { sizeInBits := 65536, cw := cw } x

/-- A size that is not a multiple of 8 is truncated: the array, the modulus and so every address are those of the multiple
below (R9, R109). -/
def Obligations.SizesAreTruncated : Prop :=
  ∀ (q r cw : Nat) (x : Fragment), r < 8 →
    (Build.mk (8 * q + r) cw).byteLen = q ∧ (Build.mk (8 * q + r) cw).bitLen = 8 * q ∧
    index (Build.mk (8 * q + r) cw) x = index (Build.mk (8 * q) cw) x

/-! ### parallel_bit_setter -/

/-- One merged update is the lanes one after another, in any order (R118). -/
def Obligations.SetEqualsLanesInAnyOrder : Prop :=
  ∀ (s : State) (h : Hash) (ls : List Lane), s.build.legal = true → Memory.wf s.mem →
    ls.Perm (lanesOf s.build h) →
    ∃ t, setLanes (lanesOf s.build h) s = .ok t ∧ setOneByOne ls s = .ok t

/-- Consequences of SET (R117): its bits are 1 after it, no bit is cleared, no other bit changes, it names one to four
distinct positions and leaves an array that is not all zero, and the array is unchanged when the bits were 1 already. -/
def Obligations.SetConsequences : Prop :=
  ∀ (s : State) (h : Hash), s.build.legal = true → Memory.wf s.mem →
    ∃ t, setLanes (lanesOf s.build h) s = .ok t ∧
      (∀ p ∈ positionsOf s.build h, bitAt t.mem p = true) ∧
      (∀ j, byteAt t.mem j &&& byteAt s.mem j = byteAt s.mem j) ∧
      (∀ p, p ∉ positionsOf s.build h → bitAt t.mem p = bitAt s.mem p) ∧
      1 ≤ (positionsOf s.build h).dedup.length ∧ (positionsOf s.build h).dedup.length ≤ 4 ∧
      (∃ j, j < s.build.byteLen ∧ byteAt t.mem j ≠ 0#8) ∧
      ((∀ p ∈ positionsOf s.build h, bitAt s.mem p = true) → t.mem = s.mem)

/-! ### The commands -/

/-- `ADD h` completes: exactly the four bits are set besides those that were, the counter is one higher modulo `2^CW`
whatever the array held, the response is (0, 0, 0), and nothing else changes (R130 to R133). -/
def Obligations.AddResult : Prop :=
  ∀ (s : State) (h : Hash), Ready s →
    ∃ m, exec (.add h) s = .next { s with
            mem := m, count := (s.count + 1) % 2 ^ s.build.cw,
            pending := s.pending ++ [{ err := .none, hit := false, count := 0 }] } ∧
      ∀ p, bitAt m p = (bitAt s.mem p || decide (p ∈ positionsOf s.build h))

/-- The new array is the old one OR an array that depends on the operand and the build alone and has exactly the four bits
set (R131). -/
def Obligations.AddOrsAnArrayOfTheOperand : Prop :=
  ∀ (b : Build) (h : Hash), b.legal = true →
    ∃ d : Memory, (∀ p, bitAt d p = true ↔ p ∈ positionsOf b h) ∧
      ∀ s : State, s.build = b → s.initialised = true →
        ∃ t, exec (.add h) s = .next t ∧ ∀ j, byteAt t.mem j = byteAt s.mem j ||| byteAt d j

/-- The frame of `ADD`: only the bytes its lanes address, the counter and one more response (R46, R130, R132). -/
def Obligations.AddFrame : Prop :=
  ∀ (s t : State) (h : Hash), exec (.add h) s = .next t →
    (∀ j, j ∉ (lanesOf s.build h).map Lane.byteIndex → byteAt t.mem j = byteAt s.mem j) ∧
    t.build = s.build ∧ t.initialised = s.initialised ∧ t.rspValid = s.rspValid ∧ t.delivered = s.delivered ∧
    t.input = s.input ∧ (∃ r, t.pending = s.pending ++ [r])

/-- The frame of `CHECK`, `LEN` and the reserved opcode: every byte and the counter are unchanged, and the only change is
one more response (R46, R120, R141, R145, R171). -/
def Obligations.QueriesChangeNothing : Prop :=
  ∀ (s t : State) (i : Instr), isAdd i = false → exec i s = .next t →
    (∀ j, byteAt t.mem j = byteAt s.mem j) ∧ ∃ r, t = { s with pending := s.pending ++ [r] }

/-- `CHECK h` completes with the conjunction of its four bits as the state has them, and changes nothing else (R140, R141). -/
def Obligations.CheckResult : Prop :=
  ∀ (s : State) (h : Hash), Ready s →
    ∃ hit, exec (.check h) s = .next { s with
              pending := s.pending ++ [{ err := .none, hit := hit, count := 0 }] } ∧
      (hit = true ↔ ∀ i, i < 4 → bitAt s.mem (index s.build (fragment h i)).position = true)

/-- `LEN` completes with the counter, whatever its ignored bits are, and changes nothing else (R145, R69). -/
def Obligations.LenResult : Prop :=
  ∀ (s : State) (x : BitVec 64), Ready s →
    exec (.len x) s = .next { s with pending := s.pending ++ [{ err := .none, hit := false, count := s.count }] }

/-- The reserved opcode completes with the error response (1, 0, 0), for every value of its low bits, and changes neither
the array nor the counter nor anything else (R170, R171). -/
def Obligations.IllegalResult : Prop :=
  ∀ (s : State) (x : BitVec 64), Ready s →
    exec (.illegal x) s =
      .next { s with pending := s.pending ++ [{ err := .illegalCommand, hit := false, count := 0 }] }

/-- The error is not sticky: the command after an illegal one has the effect and the response it would have had without it
(R171, R179). -/
def Obligations.ErrorIsNotSticky : Prop :=
  ∀ (s u : State) (x : BitVec 64) (i : Instr), exec i s = .next u →
    ∃ (r : Response) (t v : State), u.pending = s.pending ++ [r] ∧ exec (.illegal x) s = .next t ∧
      exec i t = .next v ∧ v = { u with pending := t.pending ++ [r] }

/-- A command before the first reset event is refused (R29). -/
def Obligations.CommandsBeforeResetAreRefused : Prop :=
  ∀ (s : State) (i : Instr), s.build.legal = true → s.initialised = false → exec i s = .refused .notInitialised

/-- A configuration with fewer than 8 bits is refused: its commands and its events (R10). One with no counter bit is refused in
the same way by the model's reading (DEDUCED, log entry 8): R13 requires a counter bit and asks for no refusal. -/
def Obligations.IllegalBuildsAreRefused : Prop :=
  ∀ (s : State) (i : Instr), s.build.sizeInBits < 8 ∨ s.build.cw < 1 →
    exec i s = .refused .illegalBuild ∧ (s.input ≠ [] → step s = .refused .illegalBuild)

/-- A command completes exactly when the build is legal and a reset event has happened (R10, R29, R134, R144, R212). A build
with no counter bit counts as not legal by the model's reading of R13 (DEDUCED, log entry 8). -/
def Obligations.CommandsCompleteExactlyWhenReady : Prop :=
  ∀ (s : State) (i : Instr), (∃ t, exec i s = .next t) ↔ Ready s

/-- No command and no step ever faults, in any state: out-of-range fragments wrap (R45, R104). -/
def Obligations.NothingFaults : Prop :=
  ∀ (s : State) (i : Instr) (f : Fault), exec i s ≠ .fault f ∧ step s ≠ .fault f

/-- Every command changes at most four distinct bytes of the array, all inside it: those its lanes address for `ADD`, none for
`CHECK`, `LEN` and the reserved opcode; every other byte is unchanged (R165). -/
def Obligations.AtMostFourBytesChange : Prop :=
  ∀ (s t : State) (i : Instr), exec i s = .next t →
    (writtenBytes s.build i).dedup.length ≤ 4 ∧ (∀ j ∈ writtenBytes s.build i, j < s.build.byteLen) ∧
      ∀ j, j ∉ writtenBytes s.build i → byteAt t.mem j = byteAt s.mem j

/-- The response and the new array and counter depend on the build, the array, the counter and the command alone (R160). -/
def Obligations.OutcomeDependsOnArrayAndCounterAlone : Prop :=
  ∀ (s s' : State) (i : Instr), Ready s → Ready s' → s'.build = s.build → s'.mem = s.mem → s'.count = s.count →
    ∃ (m : Memory) (n : Nat) (r : Response),
      exec i s = .next { s with mem := m, count := n, pending := s.pending ++ [r] } ∧
      exec i s' = .next { s' with mem := m, count := n, pending := s'.pending ++ [r] }

/-! ### Invariants -/

/-- The invariant holds after reset, in every build. -/
def Obligations.InvHoldsAfterReset : Prop :=
  Inv State.reset ∧ ∀ b : Build, Inv (State.ofBuild b)

/-- Every step keeps the invariant: the array stays in canonical form and in range, the counter stays `CW` bits wide, bytes
from 8192 up stay 0, `rsp_valid` stands over a waiting response, responses are those R64 allows (R13, R22, R32, R64, R65). -/
def Obligations.EveryStepKeepsInv : Prop :=
  ∀ s t : State, Inv s → step s = .next t → Inv t

/-- The size never changes, and outside reset events and losses of power no step clears a bit (R31 (a) and (b)). -/
def Obligations.BitsAreNeverCleared : Prop :=
  ∀ s t : State, step s = .next t →
    t.build = s.build ∧
    ((∀ ev rest, s.input = ev :: rest → isEdge ev = true ∧ isReset ev = false) →
      ∀ p, bitAt s.mem p = true → bitAt t.mem p = true)

/-- The array and the counter are written by `ADD` and by reset (and lost with power), by nothing else (R21, R22, R204). -/
def Obligations.OnlyAddAndResetWrite : Prop :=
  ∀ s t : State, step s = .next t → (t.mem ≠ s.mem ∨ t.count ≠ s.count) →
    ∃ ev rest, s.input = ev :: rest ∧
      (isEdge ev = false ∨ isReset ev = true ∨
        ∃ e, ev = .edge e ∧ accepts e = true ∧ isAdd (decode (e.cmdOp ++ e.cmdHash)) = true)

/-! ### The laws of the filter -/

/-- No false negatives: once `ADD h` has been executed, every later `CHECK h` hits, whatever commands come before, between
or after (R155, R121). -/
def Obligations.NoFalseNegatives : Prop :=
  ∀ (s : State) (before after : List Instr) (h : Hash), Ready s →
    ∃ t, runCommands (before ++ .add h :: after) s = .next t ∧
      exec (.check h) t = .next { t with pending := t.pending ++ [{ err := .none, hit := true, count := 0 }] }

/-- A miss is exact: `CHECK h` misses only if no `ADD h` has been executed since the reset event (R143). -/
def Obligations.MissesAreExact : Prop :=
  ∀ (s t u : State) (cs : List Instr) (h : Hash),
    s.build.legal = true → runCommands cs (resetEvent s) = .next t →
    exec (.check h) t = .next u →
    u.pending = t.pending ++ [{ err := .none, hit := false, count := 0 }] → .add h ∉ cs

/-- A hit is not exact: `CHECK h` hits after any `ADD`s that cover its four positions, `h` added or not. And hashes with the
same set of positions are indistinguishable in every ready state: `CHECK` of either has the same outcome, and `ADD` of either
leaves every byte, the counter and the responses the same, and on an array in canonical form the same state (R143, R144, R162). -/
def Obligations.CoveredHashesHit : Prop :=
  (∀ (s : State) (hs : List Hash) (h : Hash), Ready s →
    (∀ p ∈ positionsOf s.build h, ∃ g ∈ hs, p ∈ positionsOf s.build g) →
    ∃ t, runCommands (hs.map .add) s = .next t ∧
      exec (.check h) t = .next { t with pending := t.pending ++ [{ err := .none, hit := true, count := 0 }] }) ∧
  (∀ (s : State) (g h : Hash), Ready s → (∀ p, p ∈ positionsOf s.build g ↔ p ∈ positionsOf s.build h) →
    (∃ t, exec (.check g) s = .next t ∧ exec (.check h) s = .next t) ∧
    ∃ t u, exec (.add g) s = .next t ∧ exec (.add h) s = .next u ∧ (∀ j, byteAt t.mem j = byteAt u.mem j) ∧
      t.count = u.count ∧ t.pending = u.pending ∧ (Memory.wf s.mem → t = u))

/-- Idempotence: a second `ADD h` leaves the array as it is and moves the counter (R156). -/
def Obligations.InsertIsIdempotentOnTheArray : Prop :=
  ∀ (s : State) (h : Hash), Ready s → Memory.wf s.mem →
    ∃ t u, exec (.add h) s = .next t ∧ exec (.add h) t = .next u ∧ u.mem = t.mem ∧
      u.count = (t.count + 1) % 2 ^ s.build.cw

/-- Order independence: any permutation of a list of `ADD`s gives the same array and the same counter (R157, R55). -/
def Obligations.AddOrderIsIrrelevant : Prop :=
  ∀ (s : State) (hs hs' : List Hash), Ready s → Memory.wf s.mem → hs.Perm hs' →
    ∃ t t', runCommands (hs.map .add) s = .next t ∧ runCommands (hs'.map .add) s = .next t' ∧
      t.mem = t'.mem ∧ t.count = t'.count

/-- Two blocks with the same `L`, each after a reset event, that execute the same `ADD`s in any order hold the same array,
whatever their counter widths and truncated bits (R160, R181). -/
def Obligations.EqualLengthBlocksAgree : Prop :=
  ∀ (s s' : State) (hs hs' : List Hash), s.build.legal = true → s'.build.legal = true →
    s.build.byteLen = s'.build.byteLen → hs.Perm hs' →
    ∃ t t', runCommands (hs.map .add) (resetEvent s) = .next t ∧
      runCommands (hs'.map .add) (resetEvent s') = .next t' ∧ t.mem = t'.mem

/-- The empty filter rejects everything: with no `ADD` since the reset event every `CHECK` misses (R158, R122). -/
def Obligations.EmptyFilterRejects : Prop :=
  ∀ (s : State) (cs : List Instr) (h : Hash), s.build.legal = true → (∀ i ∈ cs, isAdd i = false) →
    ∃ t, runCommands cs (resetEvent s) = .next t ∧
      exec (.check h) t = .next { t with pending := t.pending ++ [{ err := .none, hit := false, count := 0 }] }

/-- Hits are monotone: a hash that hits still hits after any commands (R163). -/
def Obligations.HitsAreMonotone : Prop :=
  ∀ (s u : State) (cs : List Instr) (h : Hash),
    exec (.check h) s = .next u → u.pending = s.pending ++ [{ err := .none, hit := true, count := 0 }] →
    ∃ t, runCommands cs s = .next t ∧
      exec (.check h) t = .next { t with pending := t.pending ++ [{ err := .none, hit := true, count := 0 }] }

/-- The counter law: after a reset event and commands with `n` `ADD`s among them, `LEN` answers `n mod 2^CW`; duplicates
count, other commands do not (R164, R146). -/
def Obligations.CounterLaw : Prop :=
  ∀ (s : State) (cs : List Instr) (x : BitVec 64), s.build.legal = true →
    ∃ t, runCommands cs (resetEvent s) = .next t ∧
      exec (.len x) t = .next { t with
        pending := t.pending ++ [{ err := .none, hit := false, count := cs.countP isAdd % 2 ^ s.build.cw }] }

/-- "Empty" (no `ADD` since the reset event) is that every byte is 0, always; and while fewer than `2^CW` `ADD`s have been
executed it is that the counter is 0 (R26). -/
def Obligations.EmptyMeansAllZero : Prop :=
  ∀ (s t : State) (cs : List Instr), s.build.legal = true → runCommands cs (resetEvent s) = .next t →
    (arrayAllZero t ↔ cs.countP isAdd = 0) ∧
    (cs.countP isAdd < 2 ^ s.build.cw → (t.count = 0 ↔ cs.countP isAdd = 0))

/-- One response per command, in acceptance order, behind those already there (R64, R65, R49 (d)). -/
def Obligations.OneResponsePerCommand : Prop :=
  ∀ (s : State) (before after : List Instr) (i : Instr), Ready s →
    ∃ (rs rs' : List Response) (r : Response) (t u v : State),
      runCommands before s = .next t ∧ exec i t = .next u ∧ runCommands after u = .next v ∧
      rs.length = before.length ∧ rs'.length = after.length ∧ u.pending = t.pending ++ [r] ∧
      v.pending = s.pending ++ rs ++ r :: rs' ∧ v.delivered = s.delivered

/-- The word-level scenario for every `HASH64` and all words (R151, R155, R161): two words added after a reset event are
found, a third is answered the same way twice, and the counter is 2 (the counter needs 2 bits for that). -/
def Obligations.WordsAddedAreFound : Prop :=
  ∀ (hash64 : Hash64) (s : State) (a b c : List Byte), s.build.legal = true → 2 ≤ s.build.cw →
    ∃ (t : State) (v : Bool),
      runCommands [addWord hash64 a, addWord hash64 b, checkWord hash64 a, checkWord hash64 b, checkWord hash64 c,
          checkWord hash64 c, .len 0#64] (resetEvent s) = .next t ∧
      t.pending =
        [{ err := .none, hit := false, count := 0 }, { err := .none, hit := false, count := 0 },
         { err := .none, hit := true, count := 0 }, { err := .none, hit := true, count := 0 },
         { err := .none, hit := v, count := 0 }, { err := .none, hit := v, count := 0 },
         { err := .none, hit := false, count := 2 }]

/-! ### The ports -/

/-- An offered response is held unchanged until it is taken: while the host is not ready, `rsp_valid` stays 1 and the
fields stay as they are (R65; edges are the model's, log entry 2). -/
def Obligations.OfferedResponseIsHeld : Prop :=
  ∀ (s t : State) (e : Edge) (rest : List Event) (r : Response),
    s.input = .edge e :: rest → e.rst = false → e.rspReady = false → responsePort s = some r → step s = .next t →
    t.rspValid = true ∧ responsePort t = some r ∧ t.delivered = s.delivered

/-- A transfer hands over the response shown at the port, the oldest one, and no other (R64, R65). -/
def Obligations.TransferTakesTheOfferedResponse : Prop :=
  ∀ (s t : State) (e : Edge) (rest : List Event) (r : Response),
    s.input = .edge e :: rest → e.rst = false → e.rspReady = true → responsePort s = some r → step s = .next t →
    t.delivered = s.delivered ++ [r] ∧ ∃ new, t.pending = s.pending.tail ++ new ∧ new.length ≤ 1

/-- The packed response word has the value `rsp_err * 2^(CW+1) + rsp_hit * 2^CW + rsp_count` (R64). -/
def Obligations.PackedResponseValue : Prop :=
  ∀ (cw : Nat) (r : Response), r.count < 2 ^ cw →
    (packResponse cw r).toNat =
      (if r.err = .illegalCommand then 2 ^ (cw + 1) else 0) + (if r.hit = true then 2 ^ cw else 0) + r.count

/-- Time is not observable in the state: after any clock edges, with any readiness and latency, the array and the counter
are those of the fold over the accepted commands and reset events (R48, R51, R211, R213). -/
def Obligations.EdgesRefineTheCommandFold : Prop :=
  ∀ (evs : List Event) (s : State), s.build.legal = true → (∀ ev ∈ evs, isEdge ev = true) →
    (∀ t, runEvents evs s = .next t →
      ∃ u, runItems (itemsOf evs) s = .next u ∧ t.mem = u.mem ∧ t.count = u.count ∧
        t.initialised = u.initialised ∧ t.build = u.build) ∧
    (∀ r, runEvents evs s = .refused r → runItems (itemsOf evs) s = .refused r)

/-- Nor in the responses: between reset events, the responses taken and waiting are, in order, those of the fold over the
accepted commands (R49 (d), R65, R213). -/
def Obligations.ResponsesDoNotDependOnTiming : Prop :=
  ∀ (evs : List Event) (s t : State), s.build.legal = true →
    (∀ ev ∈ evs, isEdge ev = true ∧ isReset ev = false) → runEvents evs s = .next t →
    ∃ u, runItems (itemsOf evs) s = .next u ∧ allResponses t = allResponses u

/-- The only duty a host must keep for every command to have a meaning is to reset first: then nothing is ever refused and
nothing faults, whatever else the host does and whatever the block's timing is (R205, R212, R214). -/
def Obligations.BootedBlockAlwaysGoesOn : Prop :=
  ∀ (evs : List Event) (s : State), s.build.legal = true → bootsFirst s.initialised evs = true →
    ∃ t, runEvents evs s = .next t ∧ t.input = []

/-- A host that keeps the contract is never refused and never sees an error response, whatever the block's timing is: the
only error is the reserved opcode (R170, R173, R205, R214). The contract's duty to hold a waiting command is read as log entry
17 says. -/
def Obligations.ContractHostSeesNoError : Prop :=
  ∀ (evs : List Event) (s : State), s.build.legal = true → hostContract s.initialised evs = true →
    (∀ r ∈ allResponses s, r.err = .none) →
    ∃ t, runEvents evs s = .next t ∧ ∀ r ∈ allResponses t, r.err = .none

/-! ### The assembler -/

/-- The items of the assembler syntax are the commands they name, in canonical form, and `RESET` is a reset event (R69, R73). -/
def Obligations.AssemblerItemsAreTheirCommands : Prop :=
  (∀ h : Hash, itemsOfEvent (itemEvent (.add h)) = [.command (.add h)]) ∧
  (∀ h : Hash, itemsOfEvent (itemEvent (.check h)) = [.command (.check h)]) ∧
  itemsOfEvent (itemEvent .len) = [.command (.len 0#64)] ∧ (Instr.len 0#64).canonical = true ∧
  (∀ x : BitVec 64, itemsOfEvent (itemEvent (.illegal x)) = [.command (.illegal x)]) ∧
  itemsOfEvent (itemEvent .reset) = [.reset]
end

