-- ==== Sys2Proof/Laws/Memory.lean ====
section
/-! SUPPORT. The laws of the bit array: read after write, the canonical form, equality from equal bytes, bits of bytes. -/

namespace Sys2Proof.Machine

theorem mem_insertCell (c d : Host.Cell) (m : Memory) : d ∈ insertCell c m ↔ d = c ∨ d ∈ m := by
  induction m with
  | nil => simp [insertCell]
  | cons e m ih =>
    unfold insertCell; split
    · simp
    · simp only [List.mem_cons, ih]; tauto

theorem byteAt_insertCell (c : Host.Cell) (m : Memory) (j : Nat) (h : ∀ d ∈ m, d.1 ≠ c.1) :
    byteAt (insertCell c m) j = if c.1 = j then c.2 else byteAt m j := by
  induction m with
  | nil => simp [insertCell, byteAt]
  | cons e m ih =>
    have he : e.1 ≠ c.1 := h e (by simp)
    unfold insertCell; split
    · simp [byteAt]
    · simp only [byteAt, ih (fun d hd => h d (by simp [hd]))]
      by_cases h1 : e.1 = j
      · have : c.1 ≠ j := by omega
        simp [h1, this]
      · simp [h1]

theorem byteAt_filter_ne (m : Memory) (i j : Nat) :
    byteAt (m.filter (fun c => c.1 != i)) j = if j = i then 0#8 else byteAt m j := by
  induction m with
  | nil => simp [byteAt]
  | cons e m ih =>
    by_cases h1 : e.1 = i
    · simp only [List.filter_cons, h1, bne_self_eq_false, Bool.false_eq_true, if_false, ih, byteAt]
      by_cases h2 : j = i
      · simp [h2]
      · simp [h2, Ne.symm h2]
    · simp only [List.filter_cons, bne_iff_ne, ne_eq, h1, not_false_eq_true, if_true, byteAt, ih]
      by_cases h2 : e.1 = j
      · have : j ≠ i := by omega
        simp [h2, this]
      · simp [h2]

/-- A byte read after a write: the value written at the place written, the old byte everywhere else. -/
@[simp] theorem byteAt_setByteAt (m : Memory) (i j : Nat) (v : Byte) :
    byteAt (setByteAt m i v) j = if j = i then v else byteAt m j := by
  unfold setByteAt
  by_cases hv : v = 0#8
  · simp [hv, byteAt_filter_ne]
  · simp only [hv, if_false]
    rw [byteAt_insertCell _ _ _ (by simp)]
    simp only [byteAt_filter_ne]
    by_cases h : j = i
    · simp [h]
    · simp [h, Ne.symm h]

theorem wf_insertCell (c : Host.Cell) (m : Memory) (hm : Memory.wf m) (hc : c.2 ≠ 0#8)
    (h : ∀ d ∈ m, d.1 ≠ c.1) : Memory.wf (insertCell c m) := by
  refine ⟨?_, fun d hd => ?_⟩
  · obtain ⟨hp, -⟩ := hm
    induction m with
    | nil => simp [insertCell]
    | cons e m ih =>
      have he : e.1 ≠ c.1 := h e (by simp)
      rw [List.pairwise_cons] at hp
      unfold insertCell; split
      · rename_i hlt
        refine List.pairwise_cons.2 ⟨fun d hd => ?_, List.pairwise_cons.2 hp⟩
        rcases List.mem_cons.1 hd with rfl | hd
        · exact hlt
        · exact hlt.trans (hp.1 d hd)
      · refine List.pairwise_cons.2 ⟨fun d hd => ?_, ih (fun d hd => h d (by simp [hd])) hp.2⟩
        rcases (mem_insertCell c d m).1 hd with rfl | hd
        · omega
        · exact hp.1 d hd
  · rcases (mem_insertCell c d m).1 hd with rfl | hd
    · exact hc
    · exact hm.2 d hd

/-- A write keeps the canonical form. -/
theorem wf_setByteAt (m : Memory) (j : Nat) (v : Byte) (hm : Memory.wf m) : Memory.wf (setByteAt m j v) := by
  have hf : Memory.wf (m.filter (fun c => c.1 != j)) :=
    ⟨hm.1.filter _, fun c hc => hm.2 c (List.mem_filter.1 hc).1⟩
  unfold setByteAt
  by_cases hv : v = 0#8
  · simpa [hv] using hf
  · simp only [hv, if_false]
    exact wf_insertCell _ _ hf hv (by simp)

/-- A write lists no new byte index but its own. -/
theorem mem_setByteAt (m : Memory) (j : Nat) (v : Byte) (c : Host.Cell) (h : c ∈ setByteAt m j v) :
    c ∈ m ∨ c.1 = j := by
  unfold setByteAt at h
  by_cases hv : v = 0#8
  · simp only [hv, if_true, List.mem_filter] at h; exact .inl h.1
  · simp only [hv, if_false, mem_insertCell, List.mem_filter] at h
    rcases h with rfl | h
    · exact .inr rfl
    · exact .inl h.1

theorem memoryOf_wf (bytes : List Byte) (j : Nat) : Memory.wf (memoryOf bytes j) := by
  induction bytes generalizing j with
  | nil => simp [memoryOf, Memory.wf]
  | cons b bs ih => exact wf_setByteAt _ _ _ (ih _)

theorem memoryOf_lt (bytes : List Byte) (j : Nat) : ∀ c ∈ memoryOf bytes j, c.1 < j + bytes.length := by
  induction bytes generalizing j with
  | nil => simp [memoryOf]
  | cons b bs ih =>
    intro c hc
    rcases mem_setByteAt _ _ _ _ hc with hc | hc
    · have := ih _ c hc; simp only [List.length_cons]; omega
    · simp only [List.length_cons]; omega

/-- A byte index below every listed one reads as 0x00. -/
theorem byteAt_of_lt (m : Memory) (j : Nat) (h : ∀ c ∈ m, j < c.1) : byteAt m j = 0#8 := by
  induction m with
  | nil => rfl
  | cons e m ih =>
    have he : e.1 ≠ j := by have := h e (by simp); omega
    simp [byteAt, he, ih (fun c hc => h c (by simp [hc]))]

/-- In the canonical form, equal bytes are equal arrays. -/
theorem Memory.ext {m m' : Memory} (hm : Memory.wf m) (hm' : Memory.wf m') (h : ∀ j, byteAt m j = byteAt m' j) :
    m = m' := by
  induction m generalizing m' with
  | nil =>
    cases m' with
    | nil => rfl
    | cons d m' => have := h d.1; simp only [byteAt, if_true] at this; exact absurd this.symm (hm'.2 d (by simp))
  | cons c m ih =>
    cases m' with
    | nil => have := h c.1; simp only [byteAt, if_true] at this; exact absurd this (hm.2 c (by simp))
    | cons d m' =>
      have hc := hm.2 c (by simp)
      have hd := hm'.2 d (by simp)
      have pc := List.pairwise_cons.1 hm.1
      have pd := List.pairwise_cons.1 hm'.1
      have tail (e : Host.Cell) (n : Memory) (hn : ∀ x ∈ n, e.1 < x.1) : byteAt n e.1 = 0#8 := byteAt_of_lt n e.1 hn
      have hcd : c.1 = d.1 := by
        rcases Nat.lt_trichotomy c.1 d.1 with hlt | heq | hgt
        · have := h c.1
          have hne : ¬ d.1 = c.1 := by omega
          simp only [byteAt, if_true, if_neg hne] at this
          rw [byteAt_of_lt m' c.1 (fun x hx => hlt.trans (pd.1 x hx))] at this
          exact absurd this hc
        · exact heq
        · have := h d.1
          have hne : ¬ c.1 = d.1 := by omega
          simp only [byteAt, if_true, if_neg hne] at this
          rw [byteAt_of_lt m d.1 (fun x hx => hgt.trans (pc.1 x hx))] at this
          exact absurd this.symm hd
      have hval : c.2 = d.2 := by have := h c.1; simpa [byteAt, hcd] using this
      have hrest : m = m' := by
        refine ih ⟨pc.2, fun x hx => hm.2 x (by simp [hx])⟩ ⟨pd.2, fun x hx => hm'.2 x (by simp [hx])⟩ fun j => ?_
        have hj := h j
        by_cases hcj : c.1 = j
        · subst hcj
          rw [tail c m pc.1, hcd, tail d m' pd.1]
        · simpa [byteAt, hcj, hcd ▸ hcj] using hj
      rw [hrest, Prod.ext hcd hval]

/-- A bit of the array is a bit of its byte, most significant first. -/
theorem bitAt_eq_getLsbD (m : Memory) (p : Nat) : bitAt m p = (byteAt m (p / 8)).getLsbD (7 - p % 8) := by
  unfold bitAt
  generalize byteAt m (p / 8) = b
  have h : p % 8 < 8 := Nat.mod_lt _ (by omega)
  interval_cases p % 8 <;> revert b <;> decide

/-- Bytes are equal when all their bits are. -/
theorem byteAt_eq_of_bitAt {m m' : Memory} {j : Nat} (h : ∀ p, p / 8 = j → bitAt m p = bitAt m' p) :
    byteAt m j = byteAt m' j := by
  refine BitVec.eq_of_getLsbD_eq fun i hi => ?_
  have := h (8 * j + (7 - i)) (by omega)
  rw [bitAt_eq_getLsbD, bitAt_eq_getLsbD, show (8 * j + (7 - i)) / 8 = j by omega,
    show 7 - (8 * j + (7 - i)) % 8 = i by omega] at this
  exact this

end Sys2Proof.Machine
end

