-- ==== Sys2Proof/Laws/Operands.lean ====
section
/-! SUPPORT. What SET and TEST do, each said once. -/

namespace Sys2Proof.Machine

theorem byteLen_pos {b : Build} (h : b.legal = true) : 0 < b.byteLen := by
  simp only [Build.legal, Bool.and_eq_true, decide_eq_true_eq] at h
  exact Nat.div_pos h.1 (by omega)

/-- The indexer makes no byte index outside the array. -/
theorem index_byteIndex_lt {b : Build} (x : Fragment) (h : 0 < b.byteLen) : (index b x).byteIndex < b.byteLen := by
  have : x.toNat % (8 * b.byteLen) < 8 * b.byteLen := Nat.mod_lt _ (by omega)
  simp only [index]; omega

theorem lanesOf_byteIndex_lt {b : Build} (h : Hash) (hb : 0 < b.byteLen) :
    ∀ l ∈ lanesOf b h, l.byteIndex < b.byteLen := by
  intro l hl
  simp only [lanesOf, List.mem_cons, List.not_mem_nil, or_false] at hl
  rcases hl with rfl | rfl | rfl | rfl <;> exact index_byteIndex_lt _ hb

theorem mem_lanesOf {b : Build} {h : Hash} {l : Lane} (hl : l ∈ lanesOf b h) : ∃ x, l = index b x := by
  simp only [lanesOf, List.mem_cons, List.not_mem_nil, or_false] at hl
  rcases hl with rfl | rfl | rfl | rfl <;> exact ⟨_, rfl⟩

/-- The bits of a lane's mask: bit `7 - k` alone. -/
theorem index_mask_getLsbD (b : Build) (x : Fragment) (t : Nat) (ht : t < 8) :
    (index b x).mask.getLsbD t = decide (t = 7 - (index b x).position % 8) := by
  have key : ∀ k < 8, ∀ t < 8, (1#8 <<< (7 - k)).getLsbD t = decide (t = 7 - k) := by decide
  exact key _ (Nat.mod_lt _ (by omega)) t ht

/-- Testing a lane's mask in its byte is testing the bit at its position. -/
theorem and_mask_ne_zero (m : Memory) (b : Build) (x : Fragment) :
    (byteAt m (index b x).byteIndex &&& (index b x).mask != 0#8) = bitAt m (index b x).position := by
  rw [bitAt_eq_getLsbD]
  simp only [index]
  generalize x.toNat % (8 * b.byteLen) = p
  generalize byteAt m (p / 8) = v
  have h : p % 8 < 8 := Nat.mod_lt _ (by omega)
  interval_cases p % 8 <;> revert v <;> decide

theorem laneAcc_getLsbD (ls : List Lane) (j t : Nat) :
    (laneAcc ls j).getLsbD t = ls.any (fun l => decide (l.byteIndex = j) && l.mask.getLsbD t) := by
  induction ls with
  | nil => simp [laneAcc]
  | cons l ls ih =>
    simp only [laneAcc, BitVec.getLsbD_or, ih, List.any_cons]
    by_cases h : l.byteIndex = j <;> simp [h]

theorem laneAcc_of_not_mem {ls : List Lane} {j : Nat} (h : j ∉ ls.map Lane.byteIndex) : laneAcc ls j = 0#8 := by
  induction ls with
  | nil => rfl
  | cons l ls ih =>
    simp only [List.map_cons, List.mem_cons, not_or] at h
    simp [laneAcc, Ne.symm h.1, ih h.2]

/-- What the byte-wise OR of SET does, in range: it never faults, changes only the array, ORs `acc` into the listed bytes,
keeps the canonical form, and lists no other byte. -/
theorem orBytes_ok (acc : Nat → Byte) (js : List Nat) (s : State) (h : ∀ j ∈ js, j < s.build.byteLen) :
    ∃ m, orBytes acc js s = .ok { s with mem := m } ∧
      (∀ j, byteAt m j = if j ∈ js then byteAt s.mem j ||| acc j else byteAt s.mem j) ∧
      (Memory.wf s.mem → Memory.wf m) ∧ ∀ c ∈ m, c ∈ s.mem ∨ c.1 ∈ js := by
  induction js generalizing s with
  | nil => exact ⟨s.mem, rfl, by simp, id, fun c hc => .inl hc⟩
  | cons i js ih =>
    have hi : i < s.build.byteLen := h i (by simp)
    obtain ⟨m, he, hb, hw, hm⟩ := ih { s with mem := setByteAt s.mem i (byteAt s.mem i ||| acc i) }
      (fun j hj => h j (by simp [hj]))
    refine ⟨m, ?_, fun j => ?_, fun hs => hw (wf_setByteAt _ _ _ hs), fun c hc => ?_⟩
    · simp only [orBytes, memRead, memWrite, if_pos hi, he]
    · rw [hb j]
      simp only [byteAt_setByteAt, List.mem_cons]
      by_cases hji : j = i
      · subst hji; by_cases hjs : j ∈ js <;> simp [hjs, BitVec.or_assoc]
      · simp [hji]
    · rcases hm c hc with hc | hc
      · rcases mem_setByteAt _ _ _ _ hc with hc | hc
        · exact .inl hc
        · exact .inr (by simp [hc])
      · exact .inr (by simp [hc])

/-- What SET does, in range: it never faults, changes only the array, and every byte becomes itself OR `acc(j)`. -/
theorem setLanes_ok (ls : List Lane) (s : State) (h : ∀ l ∈ ls, l.byteIndex < s.build.byteLen) :
    ∃ m, setLanes ls s = .ok { s with mem := m } ∧ (∀ j, byteAt m j = byteAt s.mem j ||| laneAcc ls j) ∧
      (Memory.wf s.mem → Memory.wf m) ∧ ∀ c ∈ m, c ∈ s.mem ∨ c.1 ∈ ls.map Lane.byteIndex := by
  obtain ⟨m, he, hb, hw, hm⟩ := orBytes_ok (laneAcc ls) (ls.map Lane.byteIndex).dedup s
    (fun j hj => by
      obtain ⟨l, hl, rfl⟩ := List.mem_map.1 (List.mem_dedup.1 hj)
      exact h l hl)
  refine ⟨m, he, fun j => ?_, hw, fun c hc => (hm c hc).imp id List.mem_dedup.1⟩
  rw [hb j]; split
  · rfl
  · rename_i hj; rw [laneAcc_of_not_mem (fun hj' => hj (List.mem_dedup.2 hj'))]; simp

/-- What TEST does, in range: it never faults and answers the conjunction of the lanes' tests. -/
theorem testLanes_ok (ls : List Lane) (s : State) (h : ∀ l ∈ ls, l.byteIndex < s.build.byteLen) :
    testLanes ls s = .ok (ls.all (fun l => byteAt s.mem l.byteIndex &&& l.mask != 0#8)) := by
  induction ls with
  | nil => rfl
  | cons l ls ih =>
    have hl : l.byteIndex < s.build.byteLen := h l (by simp)
    simp [testLanes, memRead, hl, ih (fun l hl => h l (by simp [hl]))]

/-- The bits that the merged masks of indexed lanes add: exactly those at the lanes' positions. -/
theorem laneAcc_at_position (b : Build) (ls : List Lane) (hl : ∀ l ∈ ls, ∃ x, l = index b x) (p : Nat) :
    (laneAcc ls (p / 8)).getLsbD (7 - p % 8) = decide (p ∈ ls.map Lane.position) := by
  rw [laneAcc_getLsbD, Bool.eq_iff_iff, List.any_eq_true, decide_eq_true_iff, List.mem_map]
  refine exists_congr fun l => and_congr_right fun hmem => ?_
  obtain ⟨x, rfl⟩ := hl l hmem
  have hj : (index b x).byteIndex = (index b x).position / 8 := rfl
  rw [Bool.and_eq_true, decide_eq_true_iff, index_mask_getLsbD _ _ _ (by omega), decide_eq_true_iff, hj]
  omega

end Sys2Proof.Machine
end

