-- ==== Sys2Proof/Laws/State.lean ====
section
/-! SUPPORT. What each update of the state does to each field, so that no proof unfolds a record update. -/

namespace Sys2Proof.Machine

section Respond
variable (s : State) (r : Response)
@[simp] theorem respond_build : (respond s r).build = s.build := rfl
@[simp] theorem respond_mem : (respond s r).mem = s.mem := rfl
@[simp] theorem respond_count : (respond s r).count = s.count := rfl
@[simp] theorem respond_initialised : (respond s r).initialised = s.initialised := rfl
@[simp] theorem respond_rspValid : (respond s r).rspValid = s.rspValid := rfl
@[simp] theorem respond_pending : (respond s r).pending = s.pending ++ [r] := rfl
@[simp] theorem respond_delivered : (respond s r).delivered = s.delivered := rfl
@[simp] theorem respond_input : (respond s r).input = s.input := rfl
end Respond

theorem raiseIllegalCommand_eq_respond (s : State) :
    raiseIllegalCommand s = respond s { err := .illegalCommand, hit := false, count := 0 } := rfl

section CountUp
variable (s : State)
@[simp] theorem countUp_build : (countUp s).build = s.build := rfl
@[simp] theorem countUp_mem : (countUp s).mem = s.mem := rfl
@[simp] theorem countUp_count : (countUp s).count = (s.count + 1) % 2 ^ s.build.cw := rfl
@[simp] theorem countUp_initialised : (countUp s).initialised = s.initialised := rfl
@[simp] theorem countUp_rspValid : (countUp s).rspValid = s.rspValid := rfl
@[simp] theorem countUp_pending : (countUp s).pending = s.pending := rfl
@[simp] theorem countUp_delivered : (countUp s).delivered = s.delivered := rfl
@[simp] theorem countUp_input : (countUp s).input = s.input := rfl
end CountUp

section ResetEvent
variable (s : State)
@[simp] theorem resetEvent_build : (resetEvent s).build = s.build := rfl
@[simp] theorem resetEvent_mem : (resetEvent s).mem = [] := rfl
@[simp] theorem resetEvent_count : (resetEvent s).count = 0 := rfl
@[simp] theorem resetEvent_initialised : (resetEvent s).initialised = true := rfl
@[simp] theorem resetEvent_rspValid : (resetEvent s).rspValid = false := rfl
@[simp] theorem resetEvent_pending : (resetEvent s).pending = [] := rfl
@[simp] theorem resetEvent_delivered : (resetEvent s).delivered = s.delivered := rfl
@[simp] theorem resetEvent_input : (resetEvent s).input = s.input := rfl
end ResetEvent

section PowerUp
variable (bytes : List Byte) (n : Nat) (s : State)
@[simp] theorem powerUp_build : (powerUp bytes n s).build = s.build := rfl
@[simp] theorem powerUp_mem : (powerUp bytes n s).mem = memoryOf (bytes.take s.build.byteLen) 0 := rfl
@[simp] theorem powerUp_count : (powerUp bytes n s).count = n % 2 ^ s.build.cw := rfl
@[simp] theorem powerUp_initialised : (powerUp bytes n s).initialised = false := rfl
@[simp] theorem powerUp_rspValid : (powerUp bytes n s).rspValid = false := rfl
@[simp] theorem powerUp_pending : (powerUp bytes n s).pending = [] := rfl
@[simp] theorem powerUp_delivered : (powerUp bytes n s).delivered = s.delivered := rfl
@[simp] theorem powerUp_input : (powerUp bytes n s).input = s.input := rfl
end PowerUp

section OfferResponse
variable (d : Bool) (s : State)
@[simp] theorem offerResponse_build : (offerResponse d s).build = s.build := rfl
@[simp] theorem offerResponse_mem : (offerResponse d s).mem = s.mem := rfl
@[simp] theorem offerResponse_count : (offerResponse d s).count = s.count := rfl
@[simp] theorem offerResponse_initialised : (offerResponse d s).initialised = s.initialised := rfl
@[simp] theorem offerResponse_rspValid :
    (offerResponse d s).rspValid = (s.rspValid || (d && !s.pending.isEmpty)) := rfl
@[simp] theorem offerResponse_pending : (offerResponse d s).pending = s.pending := rfl
@[simp] theorem offerResponse_delivered : (offerResponse d s).delivered = s.delivered := rfl
@[simp] theorem offerResponse_input : (offerResponse d s).input = s.input := rfl
end OfferResponse

section TakeResponse
variable (s : State)
@[simp] theorem takeResponse_build : (takeResponse s).build = s.build := by unfold takeResponse; split <;> rfl
@[simp] theorem takeResponse_mem : (takeResponse s).mem = s.mem := by unfold takeResponse; split <;> rfl
@[simp] theorem takeResponse_count : (takeResponse s).count = s.count := by unfold takeResponse; split <;> rfl
@[simp] theorem takeResponse_initialised : (takeResponse s).initialised = s.initialised := by
  unfold takeResponse; split <;> rfl
@[simp] theorem takeResponse_input : (takeResponse s).input = s.input := by unfold takeResponse; split <;> rfl

/-- A transfer moves the oldest response from those waiting to those taken. -/
theorem takeResponse_of_pending {r : Response} {rs : List Response} (h : s.pending = r :: rs) :
    takeResponse s = { s with pending := rs, delivered := s.delivered ++ [r], rspValid := false } := by
  unfold takeResponse; split
  · simp_all
  · rename_i r' rs' h'; rw [h] at h'; obtain ⟨rfl, rfl⟩ := List.cons.inj h'; rfl

/-- A transfer keeps the sequence of all responses. -/
theorem takeResponse_responses : (takeResponse s).delivered ++ (takeResponse s).pending = s.delivered ++ s.pending := by
  unfold takeResponse; split <;> simp_all
end TakeResponse

section ResponseSide
variable (e : Edge) (s : State)
@[simp] theorem responseSide_build : (responseSide e s).build = s.build := by unfold responseSide; split <;> simp
@[simp] theorem responseSide_mem : (responseSide e s).mem = s.mem := by unfold responseSide; split <;> simp
@[simp] theorem responseSide_count : (responseSide e s).count = s.count := by unfold responseSide; split <;> simp
@[simp] theorem responseSide_initialised : (responseSide e s).initialised = s.initialised := by
  unfold responseSide; split <;> simp
@[simp] theorem responseSide_input : (responseSide e s).input = s.input := by unfold responseSide; split <;> simp
end ResponseSide

end Sys2Proof.Machine
end

