-- ==== Sys2Proof/Laws/Exec.lean ====
section
/-! SUPPORT. When a command has its meaning, and what the shared operations of the step do, each said once. -/

namespace Sys2Proof.Machine

@[simp] theorem onLegalBuild_of_legal {s : State} {k : Host.Outcome State Fault Refusal} (h : s.build.legal = true) :
    onLegalBuild s k = k := by simp [onLegalBuild, h]

@[simp] theorem whenReady_of_ready {s : State} {k : Host.Outcome State Fault Refusal} (h : Ready s) :
    whenReady s k = k := by simp [whenReady, h.1, h.2]

/-- A command that answers a next state was given in a ready state. -/
theorem whenReady_next {s t : State} {k : Host.Outcome State Fault Refusal} (h : whenReady s k = .next t) :
    Ready s ∧ k = .next t := by
  unfold whenReady onLegalBuild at h
  split at h
  · split at h
    · exact ⟨⟨by assumption, by assumption⟩, h⟩
    · cases h
  · cases h

theorem onLegalBuild_next {s t : State} {k : Host.Outcome State Fault Refusal} (h : onLegalBuild s k = .next t) :
    s.build.legal = true ∧ k = .next t := by
  unfold onLegalBuild at h
  split at h
  · exact ⟨by assumption, h⟩
  · cases h

theorem mapNext_next {f : State → State} {o : Host.Outcome State Fault Refusal} {t : State}
    (h : mapNext f o = .next t) : ∃ u, o = .next u ∧ t = f u := by
  cases o with
  | next u => exact ⟨u, rfl, by simpa [mapNext] using h.symm⟩
  | fault r => cases h
  | refused r => cases h

/-- Every command's meaning is guarded in the same way. -/
theorem exec_ready {i : Instr} {s t : State} (h : exec i s = .next t) : Ready s := by
  cases i with
  | len x => exact (whenReady_next h).1
  | add h' => exact (whenReady_next h).1
  | check h' => exact (whenReady_next h).1
  | illegal x => exact (whenReady_next h).1

/-- The step takes the next event of the list. -/
theorem step_cons {s : State} {ev : Event} {rest : List Event} (h : s.input = ev :: rest) :
    step s = handleEvent ev { s with input := rest } := by simp [step, nextEvent, h]

theorem step_nil {s : State} (h : s.input = []) : step s = .next s := by simp [step, nextEvent, h]

end Sys2Proof.Machine
end

