-- ==== Sys2Proof/Laws/PerInstr.lean ====
section
/-! SUPPORT. The family `Fields`: what a command's word holds in its two fields, one lemma per constructor. -/

namespace Sys2Proof.Laws.Fields

/-- The opcode field of a command's word is its opcode, and the operand field is its operand (R66). -/
def Statement (i : Sys2Proof.Instr) : Prop :=
  (Sys2Proof.encode i).extractLsb' 64 2 = i.opcode ∧ (Sys2Proof.encode i).extractLsb' 0 64 = i.operand

theorem fields_of_append (op : BitVec 2) (x : BitVec 64) :
    (op ++ x).extractLsb' 64 2 = op ∧ (op ++ x).extractLsb' 0 64 = x := by
  constructor
  · refine BitVec.eq_of_getLsbD_eq fun i hi => ?_
    rw [BitVec.getLsbD_extractLsb', BitVec.getLsbD_append, if_neg (by omega), Nat.add_sub_cancel_left,
      decide_eq_true hi, Bool.true_and]
  · refine BitVec.eq_of_getLsbD_eq fun i hi => ?_
    rw [BitVec.getLsbD_extractLsb', BitVec.getLsbD_append, Nat.zero_add, if_pos hi, decide_eq_true hi,
      Bool.true_and]

theorem len (x : BitVec 64) : Statement (.len x) := fields_of_append _ _
theorem add (h : BitVec 64) : Statement (.add h) := fields_of_append _ _
theorem check (h : BitVec 64) : Statement (.check h) := fields_of_append _ _
theorem illegal (x : BitVec 64) : Statement (.illegal x) := fields_of_append _ _

end Sys2Proof.Laws.Fields
end

