-- ==== Sys2Proof/Tests/Slice0.lean ====
section
/-! SUPPORT. The model's own tests: expected results are the spec's (30_encoding.md R66 and R67, 95_test_vectors.md), and a
witness that meets the premises of every statement that has some. -/

open Sys2Proof Sys2Proof.Machine

namespace Sys2Proof.Tests

/-- The next state of an outcome, if it is one. -/
def nextOf : Host.Outcome State Fault Refusal → Option State
  | .next s => some s
  | .fault _ => none
  | .refused _ => none

/-- The name of a refusal, if the outcome is one. -/
def refusalOf : Host.Outcome State Fault Refusal → Option Refusal
  | .next _ => none
  | .fault _ => none
  | .refused r => some r

/-- A state after reset with the given size, counter width, array and counter. -/
def stateOf (sizeInBits cw : Nat) (m : Memory) (count : Nat) : State :=
  { State.ofBuild { sizeInBits := sizeInBits, cw := cw } with mem := m, count := count }

/-- The array and the counter after a command. -/
def effectOf (i : Instr) (s : State) : Option (Memory × Nat) := (nextOf (exec i s)).map (fun t => (t.mem, t.count))

/-- The responses after a command. -/
def responsesOf (i : Instr) (s : State) : Option (List Response) := (nextOf (exec i s)).map State.pending

/-! ### What is ill-formed -/

theorem test_build_below_8_bits_refused : (Build.mk 7 64).legal = false := by decide
theorem test_build_without_counter_refused : (Build.mk 64000 0).legal = false := by decide
theorem test_smallest_build_accepted : (Build.mk 8 1).legal = true := by decide
theorem test_len_with_operand_not_canonical : (Instr.len 1#64).canonical = false := by decide

/-! ### Decoding: words written out from R66, the vectors of 95 section 2.9 -/

theorem test_decode_len : decode 0x00000000000000000#66 = .len 0#64 := by decide
theorem test_decode_len_bit63 : decode 0x08000000000000000#66 = .len 0x8000000000000000#64 := by decide
theorem test_decode_add : decode 0x10123456789ABCDEF#66 = .add 0x0123456789ABCDEF#64 := by decide
theorem test_decode_check : decode 0x20000000000000001#66 = .check 1#64 := by decide
theorem test_decode_illegal : decode 0x3FFFFFFFFFFFFFFFF#66 = .illegal 0xFFFFFFFFFFFFFFFF#64 := by decide
theorem test_encode_add : encode (.add 0x0123456789ABCDEF#64) = 0x10123456789ABCDEF#66 := by decide
theorem test_table_word_too_wide : decodeTableWord 72 (2 ^ 66) = none := by decide
theorem test_rows_do_not_overlap : opcodeRows.Pairwise (fun a b => a.pattern &&& b.mask ≠ b.pattern &&& a.mask) := by
  decide

/-! ### Sub-blocks: X-1, X-8, I-10, I-11, I-12, I-15, I-16, I-25, I-30, L-5, B-2, B-10 -/

theorem test_fragments :
    [0, 1, 2, 3].map (fragment 0x0123456789ABCDEF#64) = [0xCDEF#16, 0x89AB#16, 0x4567#16, 0x0123#16] ∧
    [0, 1, 2, 3].map (fragment 0x8000000000000001#64) = [1#16, 0#16, 0#16, 0x8000#16] := by decide

theorem test_index_reference :
    index Build.reference 0xF9FF#16 = { position := 63999, byteIndex := 7999, bitInByte := 7, mask := 0x01#8 } ∧
    index Build.reference 0xFA00#16 = { position := 0, byteIndex := 0, bitInByte := 0, mask := 0x80#8 } ∧
    index Build.reference 0xFFFF#16 = { position := 1535, byteIndex := 191, bitInByte := 7, mask := 0x01#8 } := by decide

theorem test_index_wide_modulus :
    index { sizeInBits := 65536, cw := 64 } 0xFFFF#16 =
      { position := 65535, byteIndex := 8191, bitInByte := 7, mask := 0x01#8 } ∧
    index { sizeInBits := 80000, cw := 64 } 0x3880#16 =
      { position := 14464, byteIndex := 1808, bitInByte := 0, mask := 0x80#8 } := by decide

theorem test_index_truncated_and_odd :
    index { sizeInBits := 20, cw := 64 } 17#16 = { position := 1, byteIndex := 0, bitInByte := 1, mask := 0x40#8 } ∧
    index { sizeInBits := 24, cw := 64 } 0xFFFF#16 =
      { position := 15, byteIndex := 1, bitInByte := 7, mask := 0x01#8 } := by decide

theorem test_positions : positionsOf Build.reference 0xFA00F9FFFA01FFFF#64 = [1535, 1, 63999, 0] := by decide

/-! ### Commands: A-4, A-8, C-3, C-4, N-3, R-2 -/

theorem test_add_all_lanes_wrap :
    effectOf (.add 0xFFFFFFFFFFFFFFFF#64) State.reset = some ([(191, 0x01#8)], 1) := by decide
theorem test_add_merges_and_counter_wraps :
    effectOf (.add 3#64) (stateOf 64000 2 [(0, 0xE0#8)] 3) = some ([(0, 0xF0#8)], 0) := by decide
theorem test_check_three_of_four_misses :
    responsesOf (.check 0x0123456789ABCDEE#64)
        (stateOf 64000 64 [(36, 0x10#8), (2220, 0x01#8), (4405, 0x10#8), (6589, 0x01#8)] 1) =
      some [{ err := .none, hit := false, count := 0 }] := by decide
theorem test_check_reversed_fragments_hit :
    responsesOf (.check 0xCDEF89AB45670123#64)
        (stateOf 64000 64 [(36, 0x10#8), (2220, 0x01#8), (4405, 0x10#8), (6589, 0x01#8)] 1) =
      some [{ err := .none, hit := true, count := 0 }] := by decide
theorem test_len_ignores_operand :
    responsesOf (.len 0xFFFFFFFFFFFFFFFF#64) (stateOf 64000 64 [] 1) =
      some [{ err := .none, hit := false, count := 1 }] := by decide
theorem test_illegal_responds_and_keeps :
    effectOf (.illegal 0xFFFFFFFFFFFFFFFF#64) (stateOf 64000 64 [(0, 0x80#8)] 1) = some ([(0, 0x80#8)], 1) ∧
    responsesOf (.illegal 0#64) State.reset = some [{ err := .illegalCommand, hit := false, count := 0 }] := by decide
theorem test_add_before_reset_refused :
    refusalOf (exec (.add 0#64) { State.reset with initialised := false }) = some .notInitialised := by decide
theorem test_packed_response :
    packResponse 2 { err := .none, hit := true, count := 0 } = 0b0100#4 ∧
    packResponse 2 { err := .illegalCommand, hit := false, count := 0 } = 0b1000#4 := by decide

/-! ### The ports: Z-2, Z-4, Z-5; a placed command runs as the first after reset -/

/-- An edge with reset on which a command is offered and the host is ready. -/
def busyResetEdge : Edge := { offerEdge 0x10000000000000000#66 with rst := true, rspReady := true, rspOffer := true }

/-- A state with a response waiting and offered. -/
def waiting (evs : List Event) : State :=
  { stateOf 64000 64 [(0, 0x78#8), (36, 0x10#8)] 7 with
    rspValid := true, pending := [{ err := .none, hit := true, count := 0 }], input := evs }

theorem test_reset_edge_wins : nextOf (step (waiting [.edge busyResetEdge])) = some State.reset := by decide
theorem test_placed_add_runs :
    (nextOf (step (State.reset.withFetchWord 72 0x10000000000000000))).map (fun t => (t.mem, t.count, t.input)) =
      some ([(0, 0x80#8)], 1, []) := by decide

/-! ### The assembler: a line with an expectation, a comment, an ill-formed line -/

theorem test_read_add :
    readLine ['A', 'd', 'd', ' ', '0', 'x', 'C', 'd', ' ', '-', '>', ' ', 'o', 'k', ' ', ';', 'x'] =
      some [(.add 0xCD#64, some .ok)] := by decide
theorem test_read_comment : readLine [' ', ';', 'L'] = some [] := by decide
theorem test_read_add_without_digits : readLine ['A', 'D', 'D', ' ', '0', 'x'] = none := by decide
theorem test_read_len :
    readLine ['L', 'E', 'N', ' ', '-', '>', ' ', 'c', 'o', 'u', 'n', 't', '=', '1', '0'] =
      some [(.len, some (.count 10))] := by decide
theorem test_word_of_empty_string : addWord (fun bytes => BitVec.ofNat 64 bytes.length) [] = .add 0#64 := by decide
theorem test_new_filter_too_small : newFilter 7 = none := by decide

/-! ### Memory: the canonical form -/

theorem test_write_zero_removes_the_cell : setByteAt [(3, 0x01#8), (5, 0x02#8)] 3 0#8 = [(5, 0x02#8)] := by decide
theorem test_write_keeps_the_order : setByteAt [(3, 0x01#8), (5, 0x02#8)] 4 0x80#8 =
    [(3, 0x01#8), (4, 0x80#8), (5, 0x02#8)] := by decide
theorem test_reset_memory_wf : Memory.wf State.reset.mem := by decide

/-! ### Witnesses: states and operands that meet each statement's premises together -/

/-- A clock edge without reset on which nothing is offered and the host takes a response. -/
def takeEdge : Edge := { resetEdge with rst := false, rspReady := true }
/-- A clock edge without reset on which nothing happens. -/
def idleEdge : Edge := { resetEdge with rst := false }
/-- The small build: 8 bits, a counter of 2 bits, after reset. -/
def small : State := stateOf 8 2 [] 0

theorem meets_DecodeEncodeRoundTrip : (Instr.add 5#64).wellFormed = true ∧ 66 ≤ 66 := by decide
theorem meets_OpcodeRowsSelectTheCommand :
    ∃ r ∈ opcodeRows, rowMatches r 0x20000000000000001#66 = true ∧ r.mnemonic = "CHECK" := by decide
theorem meets_StepRunsTheDecodedCommand :
    ∃ (s : State) (e : Edge), s.build.legal = true ∧ s.input = [.edge e] ∧ e.rst = false ∧ e.cmdValid = true ∧
      e.cmdReady = true ∧ decode (e.cmdOp ++ e.cmdHash) = .add 0#64 :=
  ⟨{ small with input := [.edge (offerEdge 0x10000000000000000#66)] }, offerEdge 0x10000000000000000#66, by decide⟩
theorem meets_PlacedCommandRunsNext : small.build.legal = true ∧ 66 ≤ 72 := by decide
theorem meets_NoInputKeepsTheState : small.input = [] := by decide
theorem meets_ResetEdgeConstructs :
    (waiting [.edge busyResetEdge]).build.legal = true ∧
    (waiting [.edge busyResetEdge]).input = [.edge busyResetEdge] ∧ busyResetEdge.rst = true := by decide
theorem meets_RepeatedResetIsOneReset :
    (waiting [.edge busyResetEdge, .edge resetEdge]).build.legal = true ∧
    (waiting [.edge busyResetEdge, .edge resetEdge]).input = [.edge busyResetEdge, .edge resetEdge] ∧
    busyResetEdge.rst = true ∧ resetEdge.rst = true := by decide
/-- `PowerLossNeedsReset`: one idle edge and then a reset edge, and then an accepting edge. -/
theorem meets_PowerLossNeedsReset :
    (∀ next, next = Event.edge resetEdge ∨ next = .edge (offerEdge 0#66) →
      (waiting [.powerLoss [0xFF#8] 9, .edge idleEdge, next]).build.legal = true ∧
      (waiting [.powerLoss [0xFF#8] 9, .edge idleEdge, next]).input =
        .powerLoss [0xFF#8] 9 :: ([.edge idleEdge] ++ [next])) ∧
    idleEdge.rst = false ∧ accepts idleEdge = false ∧ resetEdge.rst = true ∧ accepts (offerEdge 0#66) = true :=
  ⟨fun _ _ => ⟨rfl, rfl⟩, by decide⟩
theorem meets_FragmentsAreSixteenBitSlices : 3 < 4 ∧ 15 < 16 := by decide
/-- The premise `b.legal` of the indexer's statements, at its smallest, the reference, and the wide build (both sides of the
clauses on 64000 and 65536). -/
theorem meets_IndexerStatements :
    small.build.legal = true ∧ Build.reference.legal = true ∧ Build.reference.bitLen = 64000 ∧
    (Build.mk 65536 64).legal = true ∧ ¬ (Build.mk 65536 64).bitLen < 65536 ∧ (Build.mk 65535 64).bitLen < 65536 := by
  decide
theorem meets_AddressesAreInRange :
    State.reset.build = Build.reference ∧ Build.reference.legal = true := by decide
theorem meets_FragmentsAliasThroughTheWrap :
    (0xFA00#16).toNat = (0#16).toNat + 1 * Build.reference.bitLen ∧ Build.reference.legal = true := by decide
theorem meets_LargeArraysAddressTheFirst8192Bytes :
    8192 ≤ (Build.mk 65536 64).byteLen ∧ 8192 ≤ (Build.mk 80000 64).byteLen := by decide
theorem meets_SizesAreTruncated : 7 < 8 ∧ (Build.mk (8 * 2 + 4) 64).byteLen = 2 := by decide
theorem meets_SetEqualsLanesInAnyOrder :
    small.build.legal = true ∧ Memory.wf small.mem ∧
    (lanesOf small.build 0x0007000600050004#64).reverse.Perm (lanesOf small.build 0x0007000600050004#64) :=
  ⟨by decide, by decide, List.reverse_perm _⟩
/-- `SetConsequences`: an array with the four bits clear, and one with all of them set. -/
theorem meets_SetConsequences :
    small.build.legal = true ∧ Memory.wf small.mem ∧ Memory.wf [(0, 0x0F#8)] ∧
    ∀ p ∈ positionsOf (stateOf 8 2 [(0, 0x0F#8)] 1).build 0x0007000600050004#64, bitAt [(0, 0x0F#8)] p = true := by decide
/-- The premise of `AddResult`, `CheckResult`, `LenResult`, `IllegalResult`, `NoFalseNegatives`, `OneResponsePerCommand`. -/
theorem meets_Ready : Ready State.reset ∧ Ready small ∧ Ready (stateOf 64000 2 [(0, 0xE0#8)] 3) := by decide
/-- `CheckResult`: a state in which the verdict is 1 and one in which it is 0. -/
theorem meets_CheckResult :
    Hit (stateOf 8 2 [(0, 0x0F#8)] 1) 0x0004000400040004#64 ∧ ¬ Hit (stateOf 8 2 [(0, 0x0F#8)] 1) 0#64 := by decide
theorem meets_AddOrsAnArrayOfTheOperand :
    small.build.legal = true ∧ small.build = (stateOf 8 2 [(0, 0x01#8)] 3).build ∧ small.initialised = true := by decide
theorem meets_AddFrame : ∃ t, exec (.add 5#64) small = .next t := ⟨_, rfl⟩
/-- The premise of `AtMostFourBytesChange` and, for a query, of `QueriesChangeNothing`. -/
theorem meets_QueriesChangeNothing :
    (∃ t, exec (.check 5#64) small = .next t) ∧ (∃ t, exec (.len 5#64) small = .next t) ∧
    (∃ t, exec (.illegal 5#64) small = .next t) ∧ isAdd (.check 5#64) = false ∧ isAdd (.len 5#64) = false ∧
    isAdd (.illegal 5#64) = false :=
  ⟨⟨_, rfl⟩, ⟨_, rfl⟩, ⟨_, rfl⟩, rfl, rfl, rfl⟩
/-- `AtMostFourBytesChange`: an `ADD` that writes four bytes, one that writes one, and a command that writes none. -/
theorem meets_AtMostFourBytesChange :
    (∃ t, exec (.add 0x0123456789ABCDEF#64) State.reset = .next t) ∧ (∃ t, exec (.check 0#64) State.reset = .next t) ∧
    writtenBytes Build.reference (.add 0x0123456789ABCDEF#64) = [6589, 4405, 2220, 36] ∧
    (writtenBytes Build.reference (.add 0#64)).dedup = [0] ∧ writtenBytes Build.reference (.check 0#64) = [] :=
  ⟨⟨_, rfl⟩, ⟨_, rfl⟩, by decide⟩
theorem meets_ErrorIsNotSticky : ∃ u, exec (.illegal 7#64) small = .next u := ⟨_, rfl⟩
theorem meets_CommandsBeforeResetAreRefused :
    (powerUp [0xFF#8] 3 small).build.legal = true ∧ (powerUp [0xFF#8] 3 small).initialised = false := by decide
/-- `IllegalBuildsAreRefused`: each side of its premise, with an event to refuse. -/
theorem meets_IllegalBuildsAreRefused :
    (stateOf 7 64 [] 0).build.sizeInBits < 8 ∧ (stateOf 64000 0 [] 0).build.cw < 1 ∧
    ({ stateOf 7 64 [] 0 with input := [.edge idleEdge] } : State).input ≠ [] := by decide
theorem meets_OutcomeDependsOnArrayAndCounterAlone :
    Ready small ∧ Ready { small with rspValid := true, input := [.edge idleEdge] } ∧
    small.build = ({ small with rspValid := true, input := [.edge idleEdge] } : State).build ∧
    small.mem = ({ small with rspValid := true, input := [.edge idleEdge] } : State).mem ∧
    small.count = ({ small with rspValid := true, input := [.edge idleEdge] } : State).count := by decide
theorem inv_waiting (evs : List Event) : Inv (waiting evs) where
  memWf := by
    show Memory.wf [(0, 0x78#8), (36, 0x10#8)]
    decide
  memInArray := by
    show ∀ c ∈ [(0, 0x78#8), (36, 0x10#8)], c.1 < (Build.mk 64000 64).byteLen
    decide
  memReachable := by
    show true = true → ∀ c ∈ [(0, 0x78#8), (36, 0x10#8)], c.1 < 8192
    decide
  countWf := by
    show 7 < 2 ^ 64
    decide
  offerWf := by simp [waiting]
  pendingWf := by
    show ∀ r ∈ [{ err := ErrCode.none, hit := true, count := 0 }], ResponseWf 64 r
    decide
  deliveredWf := by
    show ∀ r ∈ ([] : List Response), ResponseWf 64 r
    decide
/-- `EveryStepKeepsInv`: a step that executes, transfers and offers, from a state that meets the invariant. -/
theorem meets_EveryStepKeepsInv :
    Inv (waiting [.edge { offerEdge 0x10000000000000000#66 with rspReady := true, rspOffer := true }]) ∧
    ∃ t, step (waiting [.edge { offerEdge 0x10000000000000000#66 with rspReady := true, rspOffer := true }]) = .next t :=
  ⟨inv_waiting _, ⟨_, rfl⟩⟩
theorem meets_BitsAreNeverCleared :
    (∃ t, step (waiting [.edge takeEdge]) = .next t) ∧ isEdge (.edge takeEdge) = true ∧
    isReset (.edge takeEdge) = false ∧ bitAt (waiting [.edge takeEdge]).mem 1 = true :=
  ⟨⟨_, rfl⟩, by decide⟩
theorem meets_OnlyAddAndResetWrite :
    ∃ t, step (small.withFetchWord 66 0x10000000000000000) = .next t ∧ t.count ≠ small.count :=
  ⟨_, rfl, by decide⟩
theorem meets_MissesAreExact :
    ∃ t u, runCommands [.add 0x0007000600050004#64] (resetEvent small) = .next t ∧
      exec (.check 0#64) t = .next u ∧
      u.pending = t.pending ++ [{ err := .none, hit := false, count := 0 }] ∧ small.build.legal = true :=
  ⟨_, _, rfl, rfl, rfl, by decide⟩
theorem meets_CoveredHashesHit :
    Ready small ∧ ∀ p ∈ positionsOf small.build 0x0004000400040004#64,
      ∃ g ∈ [0x0007000600050004#64], p ∈ positionsOf small.build g := by
  refine ⟨by decide, fun p hp => ⟨_, List.mem_singleton_self _, ?_⟩⟩
  revert p
  decide
/-- `CoveredHashesHit`, second clause: two hashes with the same fragments in another order (R144). -/
theorem meets_CoveredHashesHit_same_positions :
    Ready State.reset ∧ Memory.wf State.reset.mem ∧ 0x0123456789ABCDEF#64 ≠ 0xCDEF89AB45670123#64 ∧
    ∀ p, p ∈ positionsOf State.reset.build 0x0123456789ABCDEF#64 ↔
      p ∈ positionsOf State.reset.build 0xCDEF89AB45670123#64 := by
  refine ⟨by decide, by decide, by decide, fun p => ?_⟩
  have h : (positionsOf State.reset.build 0x0123456789ABCDEF#64).Perm
      (positionsOf State.reset.build 0xCDEF89AB45670123#64) := by decide
  exact h.mem_iff
theorem meets_InsertIsIdempotentOnTheArray : Ready small ∧ Memory.wf small.mem := by decide
theorem meets_AddOrderIsIrrelevant :
    Ready small ∧ Memory.wf small.mem ∧ [1#64, 2#64].Perm [2#64, 1#64] :=
  ⟨by decide, by decide, List.Perm.swap _ _ _⟩
theorem meets_EqualLengthBlocksAgree :
    (stateOf 16 2 [] 0).build.legal = true ∧ (stateOf 23 64 [] 0).build.legal = true ∧
    (stateOf 16 2 [] 0).build.byteLen = (stateOf 23 64 [] 0).build.byteLen ∧ [1#64, 2#64].Perm [2#64, 1#64] :=
  ⟨by decide, by decide, by decide, List.Perm.swap _ _ _⟩
theorem meets_EmptyFilterRejects :
    small.build.legal = true ∧ ∀ i ∈ [Instr.len 0#64, .check 3#64, .illegal 1#64], isAdd i = false := by decide
theorem meets_HitsAreMonotone :
    ∃ u, exec (.check 0x0004000400040004#64) (stateOf 8 2 [(0, 0x0F#8)] 1) = .next u ∧
      u.pending = (stateOf 8 2 [(0, 0x0F#8)] 1).pending ++ [{ err := .none, hit := true, count := 0 }] :=
  ⟨_, rfl, rfl⟩
theorem meets_CounterLaw : small.build.legal = true := by decide
/-- `EmptyMeansAllZero`: a run with no `ADD`, and one with an `ADD` below the counter's wrap. -/
theorem meets_EmptyMeansAllZero :
    (∃ t, runCommands [.len 0#64] (resetEvent small) = .next t) ∧
    (∃ t, runCommands [.add 1#64] (resetEvent small) = .next t) ∧
    [Instr.add 1#64].countP isAdd < 2 ^ small.build.cw ∧ small.build.legal = true :=
  ⟨⟨_, rfl⟩, ⟨_, rfl⟩, by decide⟩
theorem meets_WordsAddedAreFound : small.build.legal = true ∧ 2 ≤ small.build.cw := by decide
theorem meets_OfferedResponseIsHeld :
    (waiting [.edge idleEdge]).input = [.edge idleEdge] ∧ idleEdge.rst = false ∧ idleEdge.rspReady = false ∧
    responsePort (waiting [.edge idleEdge]) = some { err := .none, hit := true, count := 0 } ∧
    ∃ t, step (waiting [.edge idleEdge]) = .next t :=
  ⟨rfl, rfl, rfl, rfl, ⟨_, rfl⟩⟩
theorem meets_TransferTakesTheOfferedResponse :
    (waiting [.edge takeEdge]).input = [.edge takeEdge] ∧ takeEdge.rst = false ∧ takeEdge.rspReady = true ∧
    responsePort (waiting [.edge takeEdge]) = some { err := .none, hit := true, count := 0 } ∧
    ∃ t, step (waiting [.edge takeEdge]) = .next t :=
  ⟨rfl, rfl, rfl, rfl, ⟨_, rfl⟩⟩
theorem meets_PackedResponseValue : 3 < 2 ^ 2 := by decide
/-- `EdgesRefineTheCommandFold`: edges that go on, and edges on which a command is refused. -/
theorem meets_EdgesRefineTheCommandFold :
    small.build.legal = true ∧ (∀ ev ∈ [Event.edge takeEdge, .edge resetEdge], isEdge ev = true) ∧
    (∃ t, runEvents [.edge takeEdge, .edge resetEdge] small = .next t) ∧
    (∃ r, runEvents [.edge (offerEdge 0#66)] (powerUp [] 0 small) = .refused r) :=
  ⟨by decide, by decide, ⟨_, rfl⟩, ⟨_, rfl⟩⟩
theorem meets_ResponsesDoNotDependOnTiming :
    small.build.legal = true ∧
    (∀ ev ∈ [Event.edge (offerEdge 0#66), .edge takeEdge], isEdge ev = true ∧ isReset ev = false) ∧
    ∃ t, runEvents [.edge (offerEdge 0#66), .edge takeEdge] small = .next t :=
  ⟨by decide, by decide, ⟨_, rfl⟩⟩
theorem meets_BootedBlockAlwaysGoesOn :
    (powerUp [] 0 small).build.legal = true ∧
    bootsFirst (powerUp [] 0 small).initialised [.edge idleEdge, .edge resetEdge, .edge (offerEdge 0#66)] = true := by
  decide
/-- `ContractHostSeesNoError`: a command waits one edge, is held, and is taken on the next. -/
theorem meets_ContractHostSeesNoError :
    (powerUp [] 0 small).build.legal = true ∧
    hostContract (powerUp [] 0 small).initialised
      [.edge resetEdge, .edge { offerEdge 0x10000000000000000#66 with cmdReady := false },
       .edge (offerEdge 0x10000000000000000#66)] = true ∧
    ∀ r ∈ allResponses (powerUp [] 0 small), r.err = .none := by decide

/-! ### The host's duty to hold a waiting command (R62, R214) -/

/-- A command that waits on a reset edge is still held after it, whatever `cmd_ready` was there. -/
theorem test_hold_survives_reset :
    holdsCommand [.edge busyResetEdge, .edge idleEdge] = false ∧
    holdsCommand [.edge { busyResetEdge with cmdReady := false }, .edge (offerEdge 0#66)] = false ∧
    holdsCommand [.edge busyResetEdge, .edge (offerEdge 0x10000000000000000#66)] = true := by decide
/-- An accepted command need not be held, and nothing is asked across a loss of power. -/
theorem test_hold_ends :
    holdsCommand [.edge (offerEdge 0x10000000000000000#66), .edge idleEdge] = true ∧
    holdsCommand [.edge { offerEdge 0x10000000000000000#66 with cmdReady := false }, .powerLoss [] 0, .edge idleEdge] =
      true := by decide

end Sys2Proof.Tests
end

section
/-! PROOFS. Family 00_scope: which builds and states give a command its meaning, and what a truncated size means
(00_scope.md R9, R10, R13; 10_state.md R29). -/

namespace Sys2Proof.Machine

/-! ### The sizes of a build -/

theorem byteLen_of_remainder (q cw : Nat) {r : Nat} (hr : r < 8) : (Build.mk (8 * q + r) cw).byteLen = q := by
  simp only [Build.byteLen]; omega

/-- The indexer sees of a build nothing but its length in bytes (R101). -/
theorem index_congr_byteLen {b c : Build} (h : b.byteLen = c.byteLen) (x : Fragment) : index b x = index c x := by
  simp only [index, h]

theorem legal_eq_false_iff (b : Build) : b.legal = false ↔ b.sizeInBits < 8 ∨ b.cw < 1 := by
  simp only [Build.legal, Bool.and_eq_false_iff, decide_eq_false_iff_not, Nat.not_le]

/-! ### A build that is not this hardware -/

theorem onLegalBuild_of_not_legal {s : State} {k : Host.Outcome State Fault Refusal} (h : s.build.legal = false) :
    onLegalBuild s k = .refused .illegalBuild := by simp [onLegalBuild, h]

/-- The guard that the four commands share. -/
theorem exec_eq_whenReady (i : Instr) (s : State) : ∃ k, exec i s = whenReady s k := by
  cases i with
  | len x => exact ⟨_, rfl⟩
  | add x => exact ⟨_, rfl⟩
  | check x => exact ⟨_, rfl⟩
  | illegal x => exact ⟨_, rfl⟩

theorem exec_of_not_legal {s : State} (i : Instr) (h : s.build.legal = false) :
    exec i s = .refused .illegalBuild := by
  obtain ⟨k, hk⟩ := exec_eq_whenReady i s
  rw [hk]
  exact onLegalBuild_of_not_legal h

theorem step_of_not_legal {s : State} (h : s.build.legal = false) (hin : s.input ≠ []) :
    step s = .refused .illegalBuild := by
  obtain ⟨ev, rest, hs⟩ := List.exists_cons_of_ne_nil hin
  rw [step_cons hs]
  exact onLegalBuild_of_not_legal h

/-! ### A command in a ready state -/

/-- `LEN` in a ready state (R145). -/
theorem exec_len_of_ready {s : State} (hs : Ready s) (x : BitVec 64) :
    exec (.len x) s = .next (respond s { err := .none, hit := false, count := s.count }) :=
  whenReady_of_ready hs

/-- The reserved opcode in a ready state (R171). -/
theorem exec_illegal_of_ready {s : State} (hs : Ready s) (x : BitVec 64) :
    exec (.illegal x) s = .next (raiseIllegalCommand s) :=
  whenReady_of_ready hs

/-- `ADD` in a ready state, once SET has answered (R130). -/
theorem exec_add_of_setLanes {s u : State} {h : Hash} (hs : Ready s) (hu : setLanes (lanesOf s.build h) s = .ok u) :
    exec (.add h) s = .next (respond (countUp u) { err := .none, hit := false, count := 0 }) := by
  change whenReady s _ = _
  rw [whenReady_of_ready hs, hu]

/-- `CHECK` in a ready state, once TEST has answered (R140). -/
theorem exec_check_of_testLanes {s : State} {h : Hash} {hit : Bool} (hs : Ready s)
    (ht : testLanes (lanesOf s.build h) s = .ok hit) :
    exec (.check h) s = .next (respond s { err := .none, hit := hit, count := 0 }) := by
  change whenReady s _ = _
  rw [whenReady_of_ready hs, ht]

/-- No command is stuck in a ready state: SET and TEST find every byte that the lanes of a legal build address (R104). -/
theorem exec_completes_of_ready {s : State} (i : Instr) (hs : Ready s) : ∃ t, exec i s = .next t := by
  have inArray (h : Hash) : ∀ l ∈ lanesOf s.build h, l.byteIndex < s.build.byteLen :=
    lanesOf_byteIndex_lt h (byteLen_pos hs.1)
  cases i with
  | len x => exact ⟨_, exec_len_of_ready hs x⟩
  | add h =>
    obtain ⟨m, hset, -⟩ := setLanes_ok _ s (inArray h)
    exact ⟨_, exec_add_of_setLanes hs hset⟩
  | check h => exact ⟨_, exec_check_of_testLanes hs (testLanes_ok _ s (inArray h))⟩
  | illegal x => exact ⟨_, exec_illegal_of_ready hs x⟩

/-! ### The obligations -/

/-- Settles O33: the shared guard gives one direction, and no command being stuck in a ready state the other. -/
theorem commandsCompleteExactlyWhenReady : Obligations.CommandsCompleteExactlyWhenReady := by
  unfold Obligations.CommandsCompleteExactlyWhenReady
  intro s i
  constructor
  · rintro ⟨t, ht⟩
    exact exec_ready ht
  · exact exec_completes_of_ready i

/-- Settles O20: the two sizes have the same length in bytes, and the indexer sees nothing else of them. -/
theorem sizesAreTruncated : Obligations.SizesAreTruncated := by
  unfold Obligations.SizesAreTruncated
  intro q r cw x hr
  have hL : (Build.mk (8 * q + r) cw).byteLen = q := byteLen_of_remainder q cw hr
  have hL' : (Build.mk (8 * q) cw).byteLen = q := byteLen_of_remainder q cw (r := 0) (by omega)
  exact ⟨hL, congrArg (8 * ·) hL, index_congr_byteLen (hL.trans hL'.symm) x⟩

/-- Settles O32: the premise says that the build is not legal, and both guards refuse such a build. -/
theorem illegalBuildsAreRefused : Obligations.IllegalBuildsAreRefused := by
  unfold Obligations.IllegalBuildsAreRefused
  intro s i h
  have hb : s.build.legal = false := (legal_eq_false_iff s.build).2 h
  exact ⟨exec_of_not_legal i hb, step_of_not_legal hb⟩

end Sys2Proof.Machine
end

section
/-! PROOFS. Family 10_state: what a command and a step can do, the invariant that every step keeps, and what the state is
after reset and after a loss of power (10_state.md R21, R22, R26, R29 to R32). -/

namespace Sys2Proof.Machine

/-! ### The array: bits and the contents after power-up -/

/-- A write that ORs the merged masks of indexed lanes into every byte sets exactly the bits at the lanes' positions. -/
theorem bitAt_of_or_laneAcc {b : Build} {ls : List Lane} {m m' : Memory} (hl : ∀ l ∈ ls, ∃ x, l = index b x)
    (h : ∀ j, byteAt m' j = byteAt m j ||| laneAcc ls j) (p : Nat) :
    bitAt m' p = (bitAt m p || decide (p ∈ ls.map Lane.position)) := by
  rw [bitAt_eq_getLsbD, bitAt_eq_getLsbD, h, BitVec.getLsbD_or, laneAcc_at_position b ls hl]

theorem byteAt_ne_zero_of_bitAt {m : Memory} {p : Nat} (h : bitAt m p = true) : byteAt m (p / 8) ≠ 0#8 := by
  intro h0
  simp [bitAt_eq_getLsbD, h0] at h

/-- A 16-bit fragment reaches no byte from index 8192 up (R32). -/
theorem index_byteIndex_lt_8192 (b : Build) (x : Fragment) : (index b x).byteIndex < 8192 := by
  have hx : x.toNat < 65536 := x.isLt
  have hp : x.toNat % (8 * b.byteLen) ≤ x.toNat := Nat.mod_le _ _
  simp only [index]
  omega

theorem byteAt_memoryOf (bytes : List Byte) (k j : Nat) : byteAt (memoryOf bytes k) (k + j) = bytes.getD j 0#8 := by
  induction bytes generalizing k j with
  | nil => rfl
  | cons b bs ih =>
    cases j with
    | zero => simp [memoryOf]
    | succ j =>
      have hk : k + (j + 1) = k + 1 + j := by omega
      simp [memoryOf, hk, ih, show k + 1 + j ≠ k by omega]

/-- The bytes of the array after power-up are those of the event, as far as the array reaches. -/
theorem byteAt_powerUp (bytes : List Byte) (n : Nat) (s : State) {j : Nat} (hj : j < s.build.byteLen) :
    byteAt (powerUp bytes n s).mem j = bytes.getD j 0#8 := by
  have h := byteAt_memoryOf (bytes.take s.build.byteLen) 0 j
  rw [Nat.zero_add] at h
  rw [powerUp_mem, h]
  simp [List.getD_eq_getElem?_getD, hj]

/-! ### What a command can do -/

/-- What a command that answers a next state has done: a query only responded, and an `ADD` set its four bits and counted
up as well. -/
inductive CommandEffect (s : State) : Instr → State → Prop
  /-- `CHECK`, `LEN` and the reserved opcode (R141, R145, R171). -/
  | query {i : Instr} {r : Response} (isQuery : isAdd i = false)
      (rWf : s.count < 2 ^ s.build.cw → ResponseWf s.build.cw r) : CommandEffect s i (respond s r)
  /-- `ADD h` (R130). -/
  | add {h : Hash} {m : Memory}
      (bits : ∀ p, bitAt m p = (bitAt s.mem p || decide (p ∈ positionsOf s.build h)))
      (wf : Memory.wf s.mem → Memory.wf m)
      (cells : ∀ c ∈ m, c ∈ s.mem ∨ c.1 ∈ writtenBytes s.build (.add h)) :
      CommandEffect s (.add h) (respond (countUp { s with mem := m }) { err := .none, hit := false, count := 0 })

theorem exec_next {i : Instr} {s t : State} (ht : exec i s = .next t) : CommandEffect s i t := by
  have hs : Ready s := exec_ready ht
  have inArray (h : Hash) : ∀ l ∈ lanesOf s.build h, l.byteIndex < s.build.byteLen :=
    lanesOf_byteIndex_lt h (byteLen_pos hs.1)
  cases i with
  | len x =>
    cases ht.symm.trans (exec_len_of_ready hs x)
    exact .query rfl fun hc => by simp [ResponseWf, hc]
  | add h =>
    obtain ⟨m, hset, hbytes, hwf, hcells⟩ := setLanes_ok _ s (inArray h)
    cases ht.symm.trans (exec_add_of_setLanes hs hset)
    exact .add (bitAt_of_or_laneAcc (fun _ => mem_lanesOf) hbytes) hwf hcells
  | check h =>
    cases ht.symm.trans (exec_check_of_testLanes hs (testLanes_ok _ s (inArray h)))
    exact .query rfl fun _ => by simp [ResponseWf]
  | illegal x =>
    cases ht.symm.trans (exec_illegal_of_ready hs x)
    exact .query rfl fun _ => by simp [ResponseWf]

theorem exec_build {i : Instr} {s t : State} (ht : exec i s = .next t) : t.build = s.build := by
  cases exec_next ht with
  | query => rfl
  | add => rfl

theorem exec_count {i : Instr} {s t : State} (ht : exec i s = .next t) :
    t.count = if isAdd i then (s.count + 1) % 2 ^ s.build.cw else s.count := by
  cases exec_next ht with
  | query isQuery => simp [isQuery]
  | add => rfl

theorem exec_mem_of_query {i : Instr} {s t : State} (hi : isAdd i = false) (ht : exec i s = .next t) :
    t.mem = s.mem := by
  cases exec_next ht with
  | query => rfl
  | add => cases hi

/-- No command clears a bit (R31). -/
theorem bitAt_exec {i : Instr} {s t : State} (ht : exec i s = .next t) {p : Nat} (hp : bitAt s.mem p = true) :
    bitAt t.mem p = true := by
  cases exec_next ht with
  | query => exact hp
  | add bits => simp [bits, hp]

/-- `ADD` leaves no empty array, and no other command changes whether it is empty. -/
theorem arrayAllZero_exec {i : Instr} {s t : State} (ht : exec i s = .next t) :
    arrayAllZero t ↔ arrayAllZero s ∧ isAdd i = false := by
  have hL : 0 < s.build.byteLen := byteLen_pos (exec_ready ht).1
  cases exec_next ht with
  | query isQuery => simp [arrayAllZero, isQuery]
  | @add h m bits =>
    have hset : bitAt m (index s.build (fragment h 0)).position = true := by
      simp [bits, positionsOf, lanesOf]
    have hne : byteAt m (index s.build (fragment h 0)).byteIndex ≠ 0#8 := byteAt_ne_zero_of_bitAt hset
    have hlt : (index s.build (fragment h 0)).byteIndex < s.build.byteLen := index_byteIndex_lt _ hL
    simp only [isAdd, Bool.true_eq_false, and_false, iff_false]
    exact fun hzero => hne (hzero _ hlt)

/-- A command before the first reset event (R29). -/
theorem exec_of_not_initialised {s : State} (i : Instr) (hb : s.build.legal = true) (hs : s.initialised = false) :
    exec i s = .refused .notInitialised := by
  obtain ⟨k, hk⟩ := exec_eq_whenReady i s
  simp [hk, whenReady, hb, hs]

/-! ### What a step can do -/

theorem clockEdge_of_rst {e : Edge} (s : State) (h : e.rst = true) : clockEdge e s = .next (resetEvent s) := by
  simp [clockEdge, h]

theorem clockEdge_of_not_accepts {e : Edge} (s : State) (h : e.rst = false) (ha : accepts e = false) :
    clockEdge e s = .next (offerResponse e.rspOffer (responseSide e s)) := by
  simp [clockEdge, h, ha, mapNext]

theorem rst_of_accepts {e : Edge} (h : accepts e = true) : e.rst = false := by
  simp only [accepts, Bool.and_eq_true, Bool.not_eq_true'] at h
  exact h.1.1

theorem clockEdge_of_accepts {e : Edge} (s : State) (h : accepts e = true) :
    clockEdge e s = mapNext (offerResponse e.rspOffer) (exec (decode (wordOnWires e)) (responseSide e s)) := by
  simp [clockEdge, rst_of_accepts h, h]

theorem step_edge {s : State} {e : Edge} {rest : List Event} (hb : s.build.legal = true)
    (hin : s.input = .edge e :: rest) : step s = clockEdge e { s with input := rest } := by
  rw [step_cons hin]
  exact onLegalBuild_of_legal hb

theorem step_powerLoss {s : State} {bytes : List Byte} {n : Nat} {rest : List Event} (hb : s.build.legal = true)
    (hin : s.input = .powerLoss bytes n :: rest) : step s = .next (powerUp bytes n { s with input := rest }) := by
  rw [step_cons hin]
  exact onLegalBuild_of_legal hb

theorem step_reset {s : State} {e : Edge} {rest : List Event} (hb : s.build.legal = true)
    (hin : s.input = .edge e :: rest) (hr : e.rst = true) : step s = .next (resetEvent { s with input := rest }) := by
  rw [step_edge hb hin, clockEdge_of_rst _ hr]

/-- What a step that answers a next state has done, by the event it took. -/
inductive StepEffect (s : State) : State → Prop
  /-- No event is left. -/
  | noInput (input : s.input = []) : StepEffect s s
  /-- Power was lost (R29). -/
  | powerLoss {bytes : List Byte} {n : Nat} {rest : List Event} (input : s.input = .powerLoss bytes n :: rest) :
      StepEffect s (powerUp bytes n { s with input := rest })
  /-- A reset edge (R200). -/
  | reset {e : Edge} {rest : List Event} (input : s.input = .edge e :: rest) (rst : e.rst = true) :
      StepEffect s (resetEvent { s with input := rest })
  /-- An edge without reset that accepts no command. -/
  | quiet {e : Edge} {rest : List Event} (input : s.input = .edge e :: rest) (rst : e.rst = false)
      (notAccepts : accepts e = false) :
      StepEffect s (offerResponse e.rspOffer (responseSide e { s with input := rest }))
  /-- An edge that accepts a command (R62). -/
  | command {e : Edge} {rest : List Event} {u : State} (input : s.input = .edge e :: rest) (acc : accepts e = true)
      (run : exec (decode (wordOnWires e)) (responseSide e { s with input := rest }) = .next u) :
      StepEffect s (offerResponse e.rspOffer u)

theorem step_next {s t : State} (ht : step s = .next t) : StepEffect s t := by
  cases hin : s.input with
  | nil =>
    cases ht.symm.trans (step_nil hin)
    exact .noInput hin
  | cons ev rest =>
    have hb : s.build.legal = true := (onLegalBuild_next ((step_cons hin).symm.trans ht)).1
    cases ev with
    | powerLoss bytes n =>
      cases ht.symm.trans (step_powerLoss hb hin)
      exact .powerLoss hin
    | edge e =>
      cases hr : e.rst with
      | true =>
        cases ht.symm.trans (step_reset hb hin hr)
        exact .reset hin hr
      | false =>
        rw [step_edge hb hin] at ht
        cases ha : accepts e with
        | false =>
          cases ht.symm.trans (clockEdge_of_not_accepts _ hr ha)
          exact .quiet hin hr ha
        | true =>
          obtain ⟨u, hu, rfl⟩ := mapNext_next ((clockEdge_of_accepts _ ha).symm.trans ht)
          exact .command hin ha hu

/-! ### The invariant, kept by each operation -/

theorem inv_ofBuild (b : Build) : Inv (State.ofBuild b) where
  memWf := by simp [State.ofBuild, Memory.wf]
  memInArray := by simp [State.ofBuild]
  memReachable := by simp [State.ofBuild]
  countWf := by simp [State.ofBuild]
  offerWf := by simp [State.ofBuild]
  pendingWf := by simp [State.ofBuild]
  deliveredWf := by simp [State.ofBuild]

section Keeps
variable {s : State} (hs : Inv s)
include hs

/-- No clause of the invariant reads the input. -/
theorem inv_setInput (rest : List Event) : Inv { s with input := rest } := { hs with }

theorem inv_resetEvent : Inv (resetEvent s) where
  memWf := by simp [Memory.wf]
  memInArray := by simp
  memReachable := by simp
  countWf := by simp
  offerWf := by simp
  pendingWf := by simp
  deliveredWf := hs.deliveredWf

theorem inv_powerUp (bytes : List Byte) (n : Nat) : Inv (powerUp bytes n s) where
  memWf := memoryOf_wf _ _
  memInArray := fun c hc => by
    have hlt : c.1 < 0 + (bytes.take s.build.byteLen).length := memoryOf_lt _ 0 c hc
    have hlen : (bytes.take s.build.byteLen).length ≤ s.build.byteLen := List.length_take_le _ _
    rw [powerUp_build]
    omega
  memReachable := by simp
  countWf := Nat.mod_lt _ (by simp)
  offerWf := by simp
  pendingWf := by simp
  deliveredWf := hs.deliveredWf

theorem inv_takeResponse : Inv (takeResponse s) := by
  cases hp : s.pending with
  | nil => simpa [takeResponse, hp] using hs
  | cons r rs =>
    have hwf : ∀ q ∈ r :: rs, ResponseWf s.build.cw q := hp ▸ hs.pendingWf
    rw [takeResponse_of_pending s hp]
    exact { hs with
      offerWf := fun hv => by cases hv
      pendingWf := fun q hq => hwf q (List.mem_cons_of_mem r hq)
      deliveredWf :=
        List.forall_mem_append.2 ⟨hs.deliveredWf, List.forall_mem_singleton.2 (hwf r List.mem_cons_self)⟩ }

theorem inv_responseSide (e : Edge) : Inv (responseSide e s) := by
  unfold responseSide
  split
  · exact inv_takeResponse hs
  · exact hs

/-- `rsp_valid` rises only over a response that waits (R65). -/
theorem inv_offerResponse (done : Bool) : Inv (offerResponse done s) :=
  { hs with
    offerWf := fun hv => by
      simp only [offerResponse_rspValid, Bool.or_eq_true, Bool.and_eq_true] at hv
      rcases hv with hv | ⟨-, hv⟩
      · exact hs.offerWf hv
      · simpa using hv }

theorem inv_respond {r : Response} (hr : ResponseWf s.build.cw r) : Inv (respond s r) :=
  { hs with
    offerWf := by simp
    pendingWf := List.forall_mem_append.2 ⟨hs.pendingWf, List.forall_mem_singleton.2 hr⟩ }

theorem inv_countUp : Inv (countUp s) := { hs with countWf := Nat.mod_lt _ (by simp) }

/-- Every command keeps the invariant: the lanes of an `ADD` address bytes inside the array and below 8192. -/
theorem inv_exec {i : Instr} {t : State} (ht : exec i s = .next t) : Inv t := by
  have hL : 0 < s.build.byteLen := byteLen_pos (exec_ready ht).1
  cases exec_next ht with
  | query _ rWf => exact inv_respond hs (rWf hs.countWf)
  | @add h m _ wf cells =>
    have hset : Inv { s with mem := m } := { hs with
      memWf := wf hs.memWf
      memInArray := fun c hc => by
        rcases cells c hc with hc | hc
        · exact hs.memInArray c hc
        · obtain ⟨l, hl, hlc⟩ := List.mem_map.1 hc
          exact hlc ▸ lanesOf_byteIndex_lt h hL l hl
      memReachable := fun hi c hc => by
        rcases cells c hc with hc | hc
        · exact hs.memReachable hi c hc
        · obtain ⟨l, hl, hlc⟩ := List.mem_map.1 hc
          obtain ⟨x, rfl⟩ := mem_lanesOf hl
          exact hlc ▸ index_byteIndex_lt_8192 _ x }
    exact inv_respond (inv_countUp hset) (by simp [ResponseWf])

theorem inv_step {t : State} (ht : step s = .next t) : Inv t := by
  cases step_next ht with
  | noInput => exact hs
  | @powerLoss bytes n rest => exact inv_powerUp (inv_setInput hs rest) bytes n
  | @reset _ rest => exact inv_resetEvent (inv_setInput hs rest)
  | @quiet e rest => exact inv_offerResponse (inv_responseSide (inv_setInput hs rest) e) _
  | @command e rest _ _ _ run => exact inv_offerResponse (inv_exec (inv_responseSide (inv_setInput hs rest) e) run) _

end Keeps

/-! ### Runs of commands -/

theorem runCommands_cons_next {i : Instr} {cs : List Instr} {s t : State} (ht : runCommands (i :: cs) s = .next t) :
    ∃ u, exec i s = .next u ∧ runCommands cs u = .next t := by
  unfold runCommands at ht
  split at ht
  · exact ⟨_, by assumption, ht⟩
  · cases ht
  · cases ht

/-- The array is empty after a run exactly when it was before and the run has no `ADD`. -/
theorem arrayAllZero_runCommands {cs : List Instr} {s t : State} (ht : runCommands cs s = .next t) :
    arrayAllZero t ↔ arrayAllZero s ∧ cs.countP isAdd = 0 := by
  induction cs generalizing s with
  | nil =>
    cases ht
    simp
  | cons i cs ih =>
    obtain ⟨u, hu, ht⟩ := runCommands_cons_next ht
    rw [ih ht, arrayAllZero_exec hu]
    cases hi : isAdd i <;> simp [hi]

/-- A run adds its number of `ADD`s to the counter, modulo `2^CW` (R132). -/
theorem runCommands_count {cs : List Instr} {s t : State} (ht : runCommands cs s = .next t)
    (hc : s.count < 2 ^ s.build.cw) : t.count = (s.count + cs.countP isAdd) % 2 ^ s.build.cw := by
  induction cs generalizing s with
  | nil =>
    cases ht
    simp [Nat.mod_eq_of_lt hc]
  | cons i cs ih =>
    obtain ⟨u, hu, ht⟩ := runCommands_cons_next ht
    have hcount := exec_count hu
    have hbuild : u.build = s.build := exec_build hu
    cases hi : isAdd i with
    | false =>
      simp only [hi, Bool.false_eq_true, if_false] at hcount
      rw [ih ht (by rwa [hcount, hbuild]), hcount, hbuild]
      simp [hi]
    | true =>
      simp only [hi, if_true] at hcount
      have hlt : u.count < 2 ^ u.build.cw := by rw [hcount, hbuild]; exact Nat.mod_lt _ (by simp)
      rw [ih ht hlt, hcount, hbuild, Nat.mod_add_mod]
      simp [hi, Nat.add_comm, Nat.add_left_comm]

/-! ### An idle response channel -/

section IdleChannel
variable {s : State} (hv : s.rspValid = false)
include hv

theorem responseSide_of_not_rspValid (e : Edge) : responseSide e s = s := by simp [responseSide, transfers, hv]

/-- With nothing to respond, an edge that accepts nothing changes nothing but the input. -/
theorem step_of_idle {e : Edge} {rest : List Event} (hb : s.build.legal = true) (hp : s.pending = [])
    (hin : s.input = .edge e :: rest) (hr : e.rst = false) (ha : accepts e = false) :
    step s = .next { s with input := rest } := by
  have hside : responseSide e { s with input := rest } = { s with input := rest } :=
    responseSide_of_not_rspValid (s := { s with input := rest }) hv e
  rw [step_edge hb hin, clockEdge_of_not_accepts _ hr ha, hside]
  simp [offerResponse, hv, hp]

theorem run_of_idle (hb : s.build.legal = true) (hp : s.pending = []) (idle more : List Event)
    (hidle : ∀ ev ∈ idle, ∃ e, ev = .edge e ∧ e.rst = false ∧ accepts e = false) :
    Host.Core.run Sys2Proof.core idle.length { s with input := idle ++ more } = .next { s with input := more } := by
  induction idle with
  | nil => rfl
  | cons ev idle ih =>
    obtain ⟨⟨e, rfl, hr, ha⟩, hrest⟩ := List.forall_mem_cons.1 hidle
    have hstep : Sys2Proof.core.step { s with input := .edge e :: (idle ++ more) } =
        .next { s with input := idle ++ more } :=
      step_of_idle (s := { s with input := .edge e :: (idle ++ more) }) hv hb hp rfl hr ha
    simp only [List.length_cons, List.cons_append, Host.Core.run, hstep]
    exact ih hrest

end IdleChannel

/-- An accepting edge before the first reset event is refused (R29). -/
theorem step_accepts_of_not_initialised {s : State} {e : Edge} {rest : List Event} (hb : s.build.legal = true)
    (hs : s.initialised = false) (hin : s.input = .edge e :: rest) (ha : accepts e = true) :
    step s = .refused .notInitialised := by
  rw [step_edge hb hin, clockEdge_of_accepts _ ha, exec_of_not_initialised _ (by simpa) (by simpa)]
  rfl

/-! ### The obligations -/

/-- Settles O38: each of the five effects of a step is made of operations that keep the invariant. -/
theorem everyStepKeepsInv : Obligations.EveryStepKeepsInv := by
  unfold Obligations.EveryStepKeepsInv
  exact fun _ _ hs ht => inv_step hs ht

/-- Settles O11: the state after power-up is not initialised and its response channel is idle, so edges that accept
nothing only use up the input. -/
theorem powerLossNeedsReset : Obligations.PowerLossNeedsReset := by
  unfold Obligations.PowerLossNeedsReset
  intro s bytes n rest hb hin
  have hbytes : ∀ j, j < s.build.byteLen →
      byteAt (powerUp bytes n { s with input := rest }).mem j = bytes.getD j 0#8 :=
    fun _ => byteAt_powerUp bytes n { s with input := rest }
  refine ⟨_, step_powerLoss hb hin, hbytes, rfl, rfl, rfl, rfl, rfl, rfl, rfl,
    fun i => exec_of_not_initialised i hb rfl, ?_⟩
  rintro idle more rfl hidle
  refine ⟨run_of_idle (s := powerUp bytes n { s with input := idle ++ more }) rfl hb rfl idle more hidle, ?_⟩
  rintro e more' rfl
  constructor
  · exact fun ha => step_accepts_of_not_initialised hb rfl rfl ha
  · intro hr
    have hreset := step_reset (s := { powerUp bytes n s with input := .edge e :: more' }) hb rfl hr
    exact ⟨_, hreset, rfl, rfl, hb, rfl⟩

/-- Settles O39: the response channel leaves the array alone and a command only sets bits. -/
theorem bitsAreNeverCleared : Obligations.BitsAreNeverCleared := by
  unfold Obligations.BitsAreNeverCleared
  intro s t ht
  cases step_next ht with
  | noInput => exact ⟨rfl, fun _ _ hp => hp⟩
  | powerLoss input => exact ⟨rfl, fun h => by simpa [isEdge] using h _ _ input⟩
  | reset input rst => exact ⟨rfl, fun h => by simpa [isReset, rst] using h _ _ input⟩
  | quiet => exact ⟨by simp, fun _ p hp => by simpa using hp⟩
  | command _ _ run => exact ⟨by simp [exec_build run], fun _ p hp => bitAt_exec run (by simpa using hp)⟩

/-- Settles O40: without a command the array and the counter stay, and so they do in a query. -/
theorem onlyAddAndResetWrite : Obligations.OnlyAddAndResetWrite := by
  unfold Obligations.OnlyAddAndResetWrite
  intro s t ht hchange
  cases step_next ht with
  | noInput => simp at hchange
  | powerLoss input => exact ⟨_, _, input, .inl rfl⟩
  | reset input rst => exact ⟨_, _, input, .inr (.inl rst)⟩
  | quiet => simp at hchange
  | @command e rest _ input acc run =>
    refine ⟨_, _, input, .inr (.inr ⟨e, rfl, acc, ?_⟩)⟩
    by_contra hquery
    have hquery : isAdd (decode (wordOnWires e)) = false := Bool.eq_false_of_not_eq_true hquery
    simp [exec_mem_of_query hquery run, exec_count run, hquery] at hchange

/-- Settles O50: the reset event leaves the empty array and counter 0, and a run keeps each as its `ADD`s say. -/
theorem emptyMeansAllZero : Obligations.EmptyMeansAllZero := by
  unfold Obligations.EmptyMeansAllZero
  intro s t cs _ ht
  have hzero : arrayAllZero (resetEvent s) := fun _ _ => rfl
  refine ⟨by simp [arrayAllZero_runCommands ht, hzero], fun hlt => ?_⟩
  have hcount : t.count = cs.countP isAdd := by
    simpa [Nat.mod_eq_of_lt hlt] using runCommands_count ht (by simp)
  rw [hcount]

/-- Settles O10: each value is the one that the reset state is written with. -/
theorem resetStateValues : Obligations.ResetStateValues := by
  unfold Obligations.ResetStateValues
  exact ⟨rfl, rfl, fun _ => rfl, rfl, rfl, rfl, rfl⟩

/-- Settles O31: the guard shared by the commands refuses. -/
theorem commandsBeforeResetAreRefused : Obligations.CommandsBeforeResetAreRefused := by
  unfold Obligations.CommandsBeforeResetAreRefused
  exact fun _ => exec_of_not_initialised

/-- Settles O37: `State.reset` is the state after reset of the reference build. -/
theorem invHoldsAfterReset : Obligations.InvHoldsAfterReset := by
  unfold Obligations.InvHoldsAfterReset
  exact ⟨inv_ofBuild _, inv_ofBuild⟩

end Sys2Proof.Machine
end

section
/-! PROOFS. Family 20_memory: the frames of the commands, that nothing faults, and that clock edges with any timing refine
the fold over accepted commands and reset events (20_memory.md R45, R46, R48, R49, R51). -/

namespace Sys2Proof.Machine

/-! ### The frame of a command -/

/-- The bit positions of an operand lie in the bytes that its lanes address (R41). -/
theorem div_mem_of_mem_positionsOf {b : Build} {h : Hash} {p : Nat} (hp : p ∈ positionsOf b h) :
    p / 8 ∈ (lanesOf b h).map Lane.byteIndex := by
  obtain ⟨l, hl, rfl⟩ := List.mem_map.1 hp
  obtain ⟨x, rfl⟩ := mem_lanesOf hl
  exact List.mem_map_of_mem hl

/-- A command leaves every byte alone that it does not write. -/
theorem byteAt_exec_of_not_written {i : Instr} {s t : State} (ht : exec i s = .next t) {j : Nat}
    (hj : j ∉ writtenBytes s.build i) : byteAt t.mem j = byteAt s.mem j := by
  cases exec_next ht with
  | query => rfl
  | @add h m bits =>
    refine byteAt_eq_of_bitAt fun p hp => ?_
    have hpos : p ∉ positionsOf s.build h := fun hmem => hj (hp ▸ div_mem_of_mem_positionsOf hmem)
    simp [bits, hpos]

/-- A command changes nothing but the array, the counter and the responses that wait. -/
theorem exec_frame {i : Instr} {s t : State} (ht : exec i s = .next t) :
    ∃ m n r, t = respond { s with mem := m, count := n } r := by
  cases exec_next ht with
  | query => exact ⟨_, _, _, rfl⟩
  | add => exact ⟨_, _, _, rfl⟩

/-- A query only responds. -/
theorem exec_frame_of_query {i : Instr} {s t : State} (hi : isAdd i = false) (ht : exec i s = .next t) :
    ∃ r, t = respond s r := by
  cases exec_next ht with
  | query => exact ⟨_, rfl⟩
  | add => cases hi

/-! ### No fault -/

/-- A command completes in a ready state and is refused in every other (R10, R29). -/
theorem exec_ne_fault (i : Instr) (s : State) (f : Fault) : exec i s ≠ .fault f := by
  cases hb : s.build.legal with
  | false => simp [exec_of_not_legal i hb]
  | true =>
    cases hi : s.initialised with
    | false => simp [exec_of_not_initialised i hb hi]
    | true =>
      obtain ⟨t, ht⟩ := exec_completes_of_ready i ⟨hb, hi⟩
      simp [ht]

theorem mapNext_ne_fault {g : State → State} {o : Host.Outcome State Fault Refusal} {f : Fault} (h : o ≠ .fault f) :
    mapNext g o ≠ .fault f := by
  cases o with
  | next s => simp [mapNext]
  | fault f' => simpa [mapNext] using h
  | refused r => simp [mapNext]

theorem clockEdge_ne_fault (e : Edge) (s : State) (f : Fault) : clockEdge e s ≠ .fault f := by
  cases hr : e.rst with
  | true => simp [clockEdge_of_rst s hr]
  | false =>
    cases ha : accepts e with
    | false => simp [clockEdge_of_not_accepts s hr ha]
    | true =>
      rw [clockEdge_of_accepts s ha]
      exact mapNext_ne_fault (exec_ne_fault _ _ f)

theorem step_ne_fault (s : State) (f : Fault) : step s ≠ .fault f := by
  cases hin : s.input with
  | nil => simp [step_nil hin]
  | cons ev rest =>
    cases hb : s.build.legal with
    | false => simp [step_of_not_legal hb (hin ▸ List.cons_ne_nil ev rest)]
    | true =>
      cases ev with
      | powerLoss bytes n => simp [step_powerLoss hb hin]
      | edge e =>
        rw [step_edge hb hin]
        exact clockEdge_ne_fault e _ f

/-! ### Two states that hold the same filter -/

/-- Two states of one legal build that agree on all that a command reads; what is at their ports may differ. -/
structure SameFilter (s u : State) : Prop where
  legal : s.build.legal = true
  build : s.build = u.build
  mem : s.mem = u.mem
  count : s.count = u.count
  initialised : s.initialised = u.initialised

theorem SameFilter.refl {s : State} (hb : s.build.legal = true) : SameFilter s s := ⟨hb, rfl, rfl, rfl, rfl⟩

theorem SameFilter.legal_right {s u : State} (h : SameFilter s u) : u.build.legal = true := h.build ▸ h.legal

theorem SameFilter.resetEvent_resetEvent {s u : State} (h : SameFilter s u) :
    SameFilter (resetEvent s) (resetEvent u) :=
  ⟨h.legal, h.build, rfl, rfl, rfl⟩

section Ports
variable {s u : State} (h : SameFilter s u)
include h

theorem SameFilter.setInput_left (rest : List Event) : SameFilter { s with input := rest } u := { h with }

theorem SameFilter.offerResponse_left (done : Bool) : SameFilter (offerResponse done s) u := { h with }

theorem SameFilter.responseSide_left (e : Edge) : SameFilter (responseSide e s) u where
  legal := by simp [h.legal]
  build := by simp [h.build]
  mem := by simp [h.mem]
  count := by simp [h.count]
  initialised := by simp [h.initialised]

end Ports

/-- SET reads and writes the array alone. -/
theorem orBytes_congr {acc : Nat → Byte} {js : List Nat} {s u : State} {m : Memory} (hb : s.build = u.build)
    (hm : s.mem = u.mem) (h : orBytes acc js s = .ok { s with mem := m }) :
    orBytes acc js u = .ok { u with mem := m } := by
  induction js generalizing s u with
  | nil =>
    have hsm : s.mem = m := congrArg State.mem (Except.ok.inj h)
    simp [orBytes, ← hsm, hm]
  | cons j js ih =>
    by_cases hj : j < s.build.byteLen
    · have hj' : j < u.build.byteLen := hb ▸ hj
      simp only [orBytes, memRead, memWrite, if_pos hj, if_pos hj'] at h ⊢
      exact ih (s := { s with mem := setByteAt s.mem j (byteAt s.mem j ||| acc j) }) hb (by simp [hm]) h
    · simp [orBytes, memRead, hj] at h

/-- In ready states that hold the same filter a command does the same: the new array, the new counter and the response are
equal (R160). -/
theorem exec_congr_of_ready {s u : State} (h : SameFilter s u) (hs : s.initialised = true) (i : Instr) :
    ∃ m n r, exec i s = .next (respond { s with mem := m, count := n } r) ∧
      exec i u = .next (respond { u with mem := m, count := n } r) := by
  have hs : Ready s := ⟨h.legal, hs⟩
  have hu : Ready u := ⟨h.legal_right, h.initialised ▸ hs.2⟩
  cases i with
  | len x =>
    refine ⟨s.mem, s.count, { err := .none, hit := false, count := s.count }, exec_len_of_ready hs x, ?_⟩
    rw [h.mem, h.count]
    exact exec_len_of_ready hu x
  | illegal x =>
    refine ⟨s.mem, s.count, _, exec_illegal_of_ready hs x, ?_⟩
    rw [h.mem, h.count]
    exact exec_illegal_of_ready hu x
  | check k =>
    have hin := lanesOf_byteIndex_lt (b := u.build) k (byteLen_pos hu.1)
    have hts := testLanes_ok (lanesOf u.build k) s (h.build ▸ hin)
    have htu := testLanes_ok (lanesOf u.build k) u hin
    refine ⟨s.mem, s.count, _, exec_check_of_testLanes hs (h.build.symm ▸ hts), ?_⟩
    rw [h.mem, h.count, h.build]
    exact exec_check_of_testLanes hu htu
  | add k =>
    obtain ⟨m, hset, -⟩ := setLanes_ok _ s (lanesOf_byteIndex_lt k (byteLen_pos hs.1))
    have hset' : setLanes (lanesOf u.build k) u = .ok { u with mem := m } :=
      h.build ▸ orBytes_congr h.build h.mem hset
    refine ⟨m, (s.count + 1) % 2 ^ s.build.cw, _, exec_add_of_setLanes hs hset, ?_⟩
    rw [h.count, h.build]
    exact exec_add_of_setLanes hu hset'

/-! ### Related outcomes -/

/-- Both outcomes are next states related by `R`, or both are the same refusal. -/
inductive OutcomeRel (R : State → State → Prop) :
    Host.Outcome State Fault Refusal → Host.Outcome State Fault Refusal → Prop
  | next {t v : State} (rel : R t v) : OutcomeRel R (.next t) (.next v)
  | refused (r : Refusal) : OutcomeRel R (.refused r) (.refused r)

theorem OutcomeRel.mono {R Q : State → State → Prop} {o p : Host.Outcome State Fault Refusal} (h : OutcomeRel R o p)
    (hRQ : ∀ t v, R t v → Q t v) : OutcomeRel Q o p := by
  cases h with
  | next rel => exact .next (hRQ _ _ rel)
  | refused r => exact .refused r

theorem OutcomeRel.mapNext_left {R : State → State → Prop} {o p : Host.Outcome State Fault Refusal} {f : State → State}
    (h : OutcomeRel (fun t v => R (f t) v) o p) : OutcomeRel R (mapNext f o) p := by
  cases h with
  | next rel => exact .next rel
  | refused r => exact .refused r

theorem OutcomeRel.exists_of_next {R : State → State → Prop} {t : State} {p : Host.Outcome State Fault Refusal}
    (h : OutcomeRel R (.next t) p) : ∃ v, p = .next v ∧ R t v := by
  cases h with
  | next rel => exact ⟨_, rfl, rel⟩

theorem OutcomeRel.eq_of_refused {R : State → State → Prop} {r : Refusal} {p : Host.Outcome State Fault Refusal}
    (h : OutcomeRel R (.refused r) p) : p = .refused r := by
  cases h with
  | refused r => rfl

/-- Go on from the next state of an outcome. -/
def andThen (o : Host.Outcome State Fault Refusal) (k : State → Host.Outcome State Fault Refusal) :
    Host.Outcome State Fault Refusal :=
  match o with
  | .next s => k s
  | .fault f => .fault f
  | .refused r => .refused r

theorem OutcomeRel.andThen {R Q : State → State → Prop} {o p : Host.Outcome State Fault Refusal}
    {k l : State → Host.Outcome State Fault Refusal} (h : OutcomeRel R o p)
    (hk : ∀ t v, R t v → OutcomeRel Q (k t) (l v)) : OutcomeRel Q (andThen o k) (andThen p l) := by
  cases h with
  | next rel => exact hk _ _ rel
  | refused r => exact .refused r

/-! ### Runs, one event or item at a time -/

theorem runItems_append (xs ys : List RunItem) (s : State) :
    runItems (xs ++ ys) s = andThen (runItems xs s) (runItems ys) := by
  induction xs generalizing s with
  | nil => rfl
  | cons x xs ih =>
    cases x with
    | reset =>
      simp only [List.cons_append, runItems, ih, onLegalBuild]
      split <;> rfl
    | command i =>
      simp only [List.cons_append, runItems]
      cases exec i s with
      | next t => exact ih t
      | fault f => rfl
      | refused r => rfl

theorem runItems_reset {s : State} (hb : s.build.legal = true) : runItems [.reset] s = .next (resetEvent s) :=
  onLegalBuild_of_legal hb

theorem runItems_command (i : Instr) (s : State) : runItems [.command i] s = exec i s := by
  simp only [runItems]
  cases exec i s with
  | next t => rfl
  | fault f => rfl
  | refused r => rfl

theorem itemsOfEvent_of_rst {e : Edge} (h : e.rst = true) : itemsOfEvent (.edge e) = [.reset] := by
  simp [itemsOfEvent, h]

theorem itemsOfEvent_of_accepts {e : Edge} (h : accepts e = true) :
    itemsOfEvent (.edge e) = [.command (decode (wordOnWires e))] := by
  simp [itemsOfEvent, rst_of_accepts h, h]

theorem itemsOfEvent_of_not_accepts {e : Edge} (hr : e.rst = false) (ha : accepts e = false) :
    itemsOfEvent (.edge e) = [] := by
  simp [itemsOfEvent, hr, ha]

/-- A step uses up the first event of the input. -/
theorem step_input {s t : State} (ht : step s = .next t) : t.input = s.input.tail := by
  cases step_next ht with
  | noInput input => simp [input]
  | powerLoss input => simp [input]
  | reset input => simp [input]
  | quiet input => simp [input]
  | command input _ run =>
    obtain ⟨m, n, r, rfl⟩ := exec_frame run
    simp [input]

theorem runEvents_cons (ev : Event) (evs : List Event) (s : State) :
    runEvents (ev :: evs) s = andThen (step { s with input := ev :: evs }) (runEvents evs) := by
  have hstep : Sys2Proof.core.step { s with input := ev :: evs } = step { s with input := ev :: evs } := rfl
  simp only [runEvents, List.length_cons, Host.Core.run, hstep]
  cases ht : step { s with input := ev :: evs } with
  | next t =>
    obtain rfl : t.input = evs := step_input ht
    rfl
  | fault f => rfl
  | refused r => rfl

/-- A relation that every event keeps, between the block and the fold over what the event contributes, is kept by a list of
events. -/
theorem runEvents_rel {R : State → State → Prop} {evs : List Event}
    (hstep : ∀ ev ∈ evs, ∀ rest s u, R s u →
      OutcomeRel R (step { s with input := ev :: rest }) (runItems (itemsOfEvent ev) u))
    (hinput : ∀ s u, R s u → R { s with input := [] } u) {s u : State} (h : R s u) :
    OutcomeRel R (runEvents evs s) (runItems (itemsOf evs) u) := by
  induction evs generalizing s u with
  | nil => exact .next (hinput s u h)
  | cons ev evs ih =>
    obtain ⟨hev, hevs⟩ := List.forall_mem_cons.1 hstep
    have hitems : itemsOf (ev :: evs) = itemsOfEvent ev ++ itemsOf evs := rfl
    rw [runEvents_cons, hitems, runItems_append]
    exact (hev evs s u h).andThen fun _ _ => ih hevs

/-! ### Clock edges refine the fold -/

/-- From `s` and `u` the two sides have come to `t` and `v`, which hold the same filter, with the same new responses. -/
def ProgressAlike (s u t v : State) : Prop :=
  SameFilter t v ∧ ∃ rs, allResponses t = allResponses s ++ rs ∧ allResponses v = allResponses u ++ rs

theorem allResponses_responseSide (e : Edge) (s : State) : allResponses (responseSide e s) = allResponses s := by
  unfold responseSide
  split
  · exact takeResponse_responses s
  · rfl

theorem allResponses_respond (s : State) (r : Response) : allResponses (respond s r) = allResponses s ++ [r] := by
  simp [allResponses]

/-- A command goes alike from states that hold the same filter, refusals included. -/
theorem exec_rel {s u : State} (h : SameFilter s u) (i : Instr) :
    OutcomeRel (ProgressAlike s u) (exec i s) (exec i u) := by
  cases hs : s.initialised with
  | false =>
    rw [exec_of_not_initialised i h.legal hs, exec_of_not_initialised i h.legal_right (h.initialised ▸ hs)]
    exact .refused _
  | true =>
    obtain ⟨m, n, r, hes, heu⟩ := exec_congr_of_ready h hs i
    rw [hes, heu]
    exact .next ⟨⟨h.legal, h.build, rfl, rfl, h.initialised⟩, [r], allResponses_respond _ r,
      allResponses_respond _ r⟩

/-- An edge without reset goes like the fold over the command it accepts, if it accepts one: the response channel moves
responses about and leaves the filter alone. -/
theorem step_edge_rel {s u : State} {e : Edge} (h : SameFilter s u) (hr : e.rst = false) (rest : List Event) :
    OutcomeRel (ProgressAlike s u) (step { s with input := .edge e :: rest }) (runItems (itemsOfEvent (.edge e)) u) := by
  have hside : SameFilter (responseSide e { s with input := rest }) u :=
    (h.setInput_left rest).responseSide_left e
  have hresp : allResponses (responseSide e { s with input := rest }) = allResponses s :=
    allResponses_responseSide e { s with input := rest }
  rw [step_edge (s := { s with input := .edge e :: rest }) h.legal rfl]
  cases ha : accepts e with
  | false =>
    rw [clockEdge_of_not_accepts _ hr ha, itemsOfEvent_of_not_accepts hr ha]
    exact .next ⟨hside.offerResponse_left _, [], hresp.trans (List.append_nil _).symm, (List.append_nil _).symm⟩
  | true =>
    rw [clockEdge_of_accepts _ ha, itemsOfEvent_of_accepts ha, runItems_command]
    refine ((exec_rel hside _).mono ?_).mapNext_left
    rintro t v ⟨htv, rs, ht, hv⟩
    exact ⟨htv.offerResponse_left _, rs, hresp ▸ ht, hv⟩

/-- A reset edge is the reset event of the fold (R200). -/
theorem step_reset_rel {s u : State} {e : Edge} (h : SameFilter s u) (hr : e.rst = true) (rest : List Event) :
    OutcomeRel SameFilter (step { s with input := .edge e :: rest }) (runItems (itemsOfEvent (.edge e)) u) := by
  rw [step_reset (s := { s with input := .edge e :: rest }) h.legal rfl hr, itemsOfEvent_of_rst hr,
    runItems_reset h.legal_right]
  exact .next (h.setInput_left rest).resetEvent_resetEvent

/-- Clock edges keep the filter that the fold has. -/
theorem runEvents_sameFilter {evs : List Event} (hedges : ∀ ev ∈ evs, isEdge ev = true) {s u : State}
    (h : SameFilter s u) : OutcomeRel SameFilter (runEvents evs s) (runItems (itemsOf evs) u) := by
  refine runEvents_rel ?_ (fun _ _ h => h.setInput_left []) h
  intro ev hev rest s u h
  cases ev with
  | powerLoss bytes n => cases hedges _ hev
  | edge e =>
    cases hr : e.rst with
    | true => exact step_reset_rel h hr rest
    | false => exact (step_edge_rel h hr rest).mono fun _ _ => And.left

/-- Clock edges without reset also keep the responses that the fold has. -/
theorem runEvents_sameResponses {evs : List Event} (hedges : ∀ ev ∈ evs, isEdge ev = true ∧ isReset ev = false)
    {s u : State} (h : SameFilter s u ∧ allResponses s = allResponses u) :
    OutcomeRel (fun t v => SameFilter t v ∧ allResponses t = allResponses v) (runEvents evs s)
      (runItems (itemsOf evs) u) := by
  refine runEvents_rel ?_ (fun _ _ ⟨h, hr⟩ => ⟨h.setInput_left [], hr⟩) h
  rintro ev hev rest s u ⟨h, hsu⟩
  obtain ⟨hedge, hreset⟩ := hedges ev hev
  cases ev with
  | powerLoss bytes n => cases hedge
  | edge e =>
    refine (step_edge_rel h hreset rest).mono ?_
    rintro t v ⟨htv, rs, ht, hv⟩
    exact ⟨htv, by rw [ht, hv, hsu]⟩

/-! ### The obligations -/

/-- Settles O25: a byte that no lane addresses holds none of the four positions, and the rest is the frame of a command. -/
theorem addFrame : Obligations.AddFrame := by
  unfold Obligations.AddFrame
  intro s t h ht
  have hbytes : ∀ j, j ∉ (lanesOf s.build h).map Lane.byteIndex → byteAt t.mem j = byteAt s.mem j :=
    fun _ => byteAt_exec_of_not_written ht
  obtain ⟨m, n, r, rfl⟩ := exec_frame ht
  exact ⟨hbytes, rfl, rfl, rfl, rfl, rfl, r, rfl⟩

/-- Settles O26: a query only responds. -/
theorem queriesChangeNothing : Obligations.QueriesChangeNothing := by
  unfold Obligations.QueriesChangeNothing
  intro s t i hi ht
  obtain ⟨r, rfl⟩ := exec_frame_of_query hi ht
  exact ⟨fun _ => rfl, r, rfl⟩

/-- Settles O34: a command completes or is refused, and a step does nothing else that could fault. -/
theorem nothingFaults : Obligations.NothingFaults := by
  unfold Obligations.NothingFaults
  exact fun s i f => ⟨exec_ne_fault i s f, step_ne_fault s f⟩

/-- Settles O56: the state at the ports and the fold's state hold the same filter after every edge. -/
theorem edgesRefineTheCommandFold : Obligations.EdgesRefineTheCommandFold := by
  unfold Obligations.EdgesRefineTheCommandFold
  intro evs s hb hedges
  have hrel : OutcomeRel SameFilter (runEvents evs s) (runItems (itemsOf evs) s) :=
    runEvents_sameFilter hedges (.refl hb)
  constructor
  · intro t ht
    obtain ⟨u, hu, htu⟩ := (ht ▸ hrel).exists_of_next
    exact ⟨u, hu, htu.mem, htu.count, htu.initialised, htu.build⟩
  · intro r hr
    exact (hr ▸ hrel).eq_of_refused

/-- Settles O57: without reset the two sides also have the same responses after every edge. -/
theorem responsesDoNotDependOnTiming : Obligations.ResponsesDoNotDependOnTiming := by
  unfold Obligations.ResponsesDoNotDependOnTiming
  intro evs s t hb hedges ht
  have hrel := runEvents_sameResponses hedges (u := s) ⟨.refl hb, rfl⟩
  obtain ⟨u, hu, -, htu⟩ := (ht ▸ hrel).exists_of_next
  exact ⟨u, hu, htu⟩

end Sys2Proof.Machine
end

section
/-! PROOFS. Family 30_encoding: the decoder and the encoder are inverse to each other, the opcode map, the packed response,
the two channels at a clock edge, and the assembler's items (30_encoding.md R62 to R67, R69, R73). -/

namespace Sys2Proof

/-! ### The fields of a command word -/

/-- A word is its opcode field above its operand field (R66). -/
theorem opcode_append_operand (w : CommandWord) : w.extractLsb' 64 2 ++ w.extractLsb' 0 64 = w :=
  BitVec.extractLsb'_append_extractLsb' (w := 2) (len := 64)

theorem fields_encode (i : Instr) : Laws.Fields.Statement i := by
  cases i with
  | len x => exact Laws.Fields.len x
  | add h => exact Laws.Fields.add h
  | check h => exact Laws.Fields.check h
  | illegal x => exact Laws.Fields.illegal x

/-- A word with the two fields of a command decodes to that command. -/
theorem decode_of_fields {w : CommandWord} {i : Instr} (hop : w.extractLsb' 64 2 = i.opcode)
    (hx : w.extractLsb' 0 64 = i.operand) : decode w = i := by
  simp only [decode, hop, hx]
  cases i with
  | len x => rfl
  | add h => rfl
  | check h => rfl
  | illegal x => rfl

/-! ### Decoding and encoding -/

@[simp] theorem decode_encode (i : Instr) : decode (encode i) = i := by
  obtain ⟨hop, hx⟩ := fields_encode i
  exact decode_of_fields hop hx

/-- Every opcode has a command with a given operand: the four rows of R67 leave no opcode out. -/
theorem exists_opcode_operand (op : BitVec 2) (x : BitVec 64) : ∃ i : Instr, i.opcode = op ∧ i.operand = x := by
  have hop : op = 0b00#2 ∨ op = 0b01#2 ∨ op = 0b10#2 ∨ op = 0b11#2 := by
    revert op
    decide
  rcases hop with rfl | rfl | rfl | rfl
  · exact ⟨.len x, rfl, rfl⟩
  · exact ⟨.add x, rfl, rfl⟩
  · exact ⟨.check x, rfl, rfl⟩
  · exact ⟨.illegal x, rfl, rfl⟩

theorem encode_surjective : Function.Surjective encode := by
  intro w
  obtain ⟨i, hop, hx⟩ := exists_opcode_operand (w.extractLsb' 64 2) (w.extractLsb' 0 64)
  refine ⟨i, ?_⟩
  rw [encode, hop, hx, opcode_append_operand]

@[simp] theorem encode_decode (w : CommandWord) : encode (decode w) = w := by
  obtain ⟨i, rfl⟩ := encode_surjective w
  rw [decode_encode]

/-- A table row of at least 66 bits holds a whole command word. -/
theorem decodeTableWord_toNat (w : CommandWord) {nbits : Nat} (hn : 66 ≤ nbits) :
    decodeTableWord nbits w.toNat = some (decode w) := by
  have hfits : w.toNat < 2 ^ nbits := w.isLt.trans_le (Nat.pow_le_pow_right (by omega) hn)
  simp [decodeTableWord, decodeNat, Nat.mod_eq_of_lt hfits, w.isLt]

/-! ### The opcode map -/

theorem mask_of_mem_opcodeRows {r : OpcodeRow} (hr : r ∈ opcodeRows) : r.mask = opcodeMask := by
  revert r
  decide

/-- The common mask of the rows keeps the opcode of a word and clears the operand (R67). -/
theorem encode_and_opcodeMask (i : Instr) : encode i &&& opcodeMask = i.opcode ++ 0#64 := by
  have hmask : opcodeMask = BitVec.allOnes 2 ++ 0#64 := by decide
  rw [hmask, encode, BitVec.and_append, BitVec.and_allOnes, BitVec.and_zero]

theorem rowMatches_encode_iff {r : OpcodeRow} (hr : r ∈ opcodeRows) (i : Instr) :
    rowMatches r (encode i) = true ↔ i.opcode ++ 0#64 = r.pattern := by
  rw [rowMatches, mask_of_mem_opcodeRows hr, encode_and_opcodeMask, beq_iff_eq]

/-- Opcode and mnemonic of a command name the same row of the map. -/
theorem opcode_eq_pattern_iff {r : OpcodeRow} (hr : r ∈ opcodeRows) (i : Instr) :
    i.opcode ++ 0#64 = r.pattern ↔ mnemonicOf i = r.mnemonic := by
  revert r
  cases i with
  | len x => simp only [Instr.opcode, mnemonicOf]; decide
  | add h => simp only [Instr.opcode, mnemonicOf]; decide
  | check h => simp only [Instr.opcode, mnemonicOf]; decide
  | illegal x => simp only [Instr.opcode, mnemonicOf]; decide

end Sys2Proof

namespace Sys2Proof.Machine

/-! ### The packed response -/

theorem toNat_append_eq_add {m n : Nat} (x : BitVec m) (y : BitVec n) :
    (x ++ y).toNat = x.toNat * 2 ^ n + y.toNat := by
  rw [BitVec.toNat_append, ← Nat.shiftLeft_add_eq_or_of_lt y.isLt, Nat.shiftLeft_eq]

theorem toNat_packResponse {cw : Nat} {r : Response} (hc : r.count < 2 ^ cw) :
    (packResponse cw r).toNat = ((errBit r.err).toNat * 2 + r.hit.toNat) * 2 ^ cw + r.count := by
  rw [packResponse, toNat_append_eq_add, toNat_append_eq_add, BitVec.toNat_ofBool, BitVec.toNat_ofBool, pow_one,
    BitVec.toNat_ofNat, Nat.mod_eq_of_lt hc]

/-! ### Acceptance at the ports -/

/-- The host's offer puts the word on the wires. -/
theorem wordOnWires_offerEdge (w : CommandWord) : wordOnWires (offerEdge w) = w := opcode_append_operand w

theorem accepts_of_wires {e : Edge} (hr : e.rst = false) (hv : e.cmdValid = true) (hc : e.cmdReady = true) :
    accepts e = true := by simp [accepts, hr, hv, hc]

/-- The edge at which a command's word is offered contributes that command to a run. -/
theorem itemsOfEvent_offerEdge_encode (i : Instr) : itemsOfEvent (.edge (offerEdge (encode i))) = [.command i] := by
  rw [itemsOfEvent_of_accepts (accepts_of_wires rfl rfl rfl), wordOnWires_offerEdge, decode_encode]

/-! ### The response channel at an edge -/

theorem responsePort_eq_some_iff {s : State} {r : Response} :
    responsePort s = some r ↔ s.rspValid = true ∧ ∃ rs, s.pending = r :: rs := by
  simp [responsePort, List.head?_eq_some_iff]

theorem responseSide_of_not_rspReady {e : Edge} (s : State) (h : e.rspReady = false) : responseSide e s = s := by
  simp [responseSide, transfers, h]

/-- The host takes the response that is shown (R64). -/
theorem responseSide_of_rspReady {s : State} {e : Edge} {r : Response} {rs : List Response} (hr : e.rst = false)
    (hh : e.rspReady = true) (hv : s.rspValid = true) (hp : s.pending = r :: rs) :
    responseSide e s = { s with pending := rs, delivered := s.delivered ++ [r], rspValid := false } := by
  simp [responseSide, transfers, hr, hh, hv, takeResponse_of_pending s hp]

/-- What the rest of an edge without reset does to the response channel once `c`, the state after the transfer, is reached:
at most one new response waits, none is taken, and `rsp_valid` does not fall (R65). -/
structure ChannelGrows (c t : State) : Prop where
  pending : ∃ new, t.pending = c.pending ++ new ∧ new.length ≤ 1
  delivered : t.delivered = c.delivered
  rspValid : c.rspValid = true → t.rspValid = true

theorem step_channelGrows {s t : State} {e : Edge} {rest : List Event} (hin : s.input = .edge e :: rest)
    (hr : e.rst = false) (ht : step s = .next t) : ChannelGrows (responseSide e { s with input := rest }) t := by
  cases step_next ht with
  | noInput input => cases hin.symm.trans input
  | powerLoss input => cases hin.symm.trans input
  | reset input rst =>
    cases hin.symm.trans input
    cases hr.symm.trans rst
  | quiet input =>
    cases hin.symm.trans input
    exact ⟨⟨[], by simp, by simp⟩, rfl, fun hv => by simp [hv]⟩
  | command input _ run =>
    cases hin.symm.trans input
    obtain ⟨m, n, r, rfl⟩ := exec_frame run
    exact ⟨⟨[r], rfl, Nat.le_refl 1⟩, rfl, fun hv => by simp [hv]⟩

/-! ### The responses of a run of commands -/

/-- A run from `s` to the ready state `t` has put the responses `rs` behind those that waited, and none was taken. -/
structure Answers (s : State) (rs : List Response) (t : State) : Prop where
  ready : Ready t
  pending : t.pending = s.pending ++ rs
  delivered : t.delivered = s.delivered

theorem exec_answers {s : State} (hs : Ready s) (i : Instr) : ∃ r t, exec i s = .next t ∧ Answers s [r] t := by
  obtain ⟨t, ht⟩ := exec_completes_of_ready i hs
  obtain ⟨m, n, r, rfl⟩ := exec_frame ht
  exact ⟨r, _, ht, hs, rfl, rfl⟩

theorem runCommands_answers {s : State} (hs : Ready s) (cs : List Instr) :
    ∃ rs t, runCommands cs s = .next t ∧ rs.length = cs.length ∧ Answers s rs t := by
  induction cs generalizing s with
  | nil => exact ⟨[], s, rfl, rfl, hs, by simp, rfl⟩
  | cons i cs ih =>
    obtain ⟨r, u, hu, hsu⟩ := exec_answers hs i
    obtain ⟨rs, t, ht, hlen, hut⟩ := ih hsu.ready
    refine ⟨r :: rs, t, by simp [runCommands, hu, ht], by simp [hlen], hut.ready, ?_, ?_⟩
    · rw [hut.pending, hsu.pending, List.append_assoc, List.singleton_append]
    · rw [hut.delivered, hsu.delivered]

/-! ### The obligations -/

/-- Settles O1: the fields of the encoded word are the command's, and the decoder reads nothing else. -/
theorem decodeEncodeRoundTrip : Obligations.DecodeEncodeRoundTrip := by
  unfold Obligations.DecodeEncodeRoundTrip
  intro i nbits _ hn
  exact ⟨decode_encode i, by rw [decodeTableWord_toNat _ hn, decode_encode]⟩

/-- Settles O2: every word is the encoding of some command, and decoding finds it. -/
theorem encodeDecodeRoundTrip : Obligations.EncodeDecodeRoundTrip := by
  unfold Obligations.EncodeDecodeRoundTrip
  exact encode_decode

/-- Settles O3: the mask leaves the opcode of the word, which is one row's pattern. -/
theorem opcodeRowsSelectTheCommand : Obligations.OpcodeRowsSelectTheCommand := by
  unfold Obligations.OpcodeRowsSelectTheCommand
  intro w r hr
  obtain ⟨i, rfl⟩ := encode_surjective w
  rw [decode_encode, rowMatches_encode_iff hr, opcode_eq_pattern_iff hr]

/-- Settles O51: the run before, the command and the run after each add their own responses behind the earlier ones. -/
theorem oneResponsePerCommand : Obligations.OneResponsePerCommand := by
  unfold Obligations.OneResponsePerCommand
  intro s before after i hs
  obtain ⟨rs, t, ht, hlen, hst⟩ := runCommands_answers hs before
  obtain ⟨r, u, hu, htu⟩ := exec_answers hst.ready i
  obtain ⟨rs', v, hv, hlen', huv⟩ := runCommands_answers htu.ready after
  refine ⟨rs, rs', r, t, u, v, ht, hu, hv, hlen, hlen', htu.pending, ?_, ?_⟩
  · simp [huv.pending, htu.pending, hst.pending]
  · rw [huv.delivered, htu.delivered, hst.delivered]

/-- Settles O53: without `rsp_ready` nothing is transferred, so the response shown stays the oldest that waits. -/
theorem offeredResponseIsHeld : Obligations.OfferedResponseIsHeld := by
  unfold Obligations.OfferedResponseIsHeld
  intro s t e rest r hin hr hh hport ht
  obtain ⟨hv, rs, hp⟩ := responsePort_eq_some_iff.1 hport
  have hgrows := step_channelGrows hin hr ht
  rw [responseSide_of_not_rspReady _ hh] at hgrows
  obtain ⟨⟨new, hpending, -⟩, hdelivered, hvalid⟩ := hgrows
  have hshown : t.pending = r :: (rs ++ new) := by rw [hpending, hp, List.cons_append]
  exact ⟨hvalid hv, responsePort_eq_some_iff.2 ⟨hvalid hv, _, hshown⟩, hdelivered⟩

/-- Settles O54: the transfer moves the oldest response, and the rest of the edge adds at most one. -/
theorem transferTakesTheOfferedResponse : Obligations.TransferTakesTheOfferedResponse := by
  unfold Obligations.TransferTakesTheOfferedResponse
  intro s t e rest r hin hr hh hport ht
  obtain ⟨hv, rs, hp⟩ := responsePort_eq_some_iff.1 hport
  have hgrows := step_channelGrows hin hr ht
  rw [responseSide_of_rspReady (s := { s with input := rest }) hr hh hv hp] at hgrows
  obtain ⟨⟨new, hpending, hnew⟩, hdelivered, -⟩ := hgrows
  exact ⟨hdelivered, new, by rw [hpending, hp, List.tail_cons], hnew⟩

/-- Settles O55: each field stands above the width of the fields below it. -/
theorem packedResponseValue : Obligations.PackedResponseValue := by
  unfold Obligations.PackedResponseValue
  intro cw r hc
  have herr : (errBit r.err).toNat * 2 * 2 ^ cw = if r.err = .illegalCommand then 2 ^ (cw + 1) else 0 := by
    cases r.err with
    | none => simp [errBit]
    | illegalCommand => simp [errBit, Nat.pow_succ']
  have hhit : r.hit.toNat * 2 ^ cw = if r.hit = true then 2 ^ cw else 0 := by cases r.hit <;> simp
  rw [toNat_packResponse hc, Nat.add_mul, herr, hhit]

/-- Settles O4: each word is the encoding of the command it stands for. -/
theorem writtenWordsDecode : Obligations.WrittenWordsDecode := by
  unfold Obligations.WrittenWordsDecode
  exact ⟨decode_encode (.len 0#64), decode_encode (.len 0x8000000000000000#64),
    decode_encode (.add 0x0123456789ABCDEF#64), decode_encode (.check 1#64),
    decode_encode (.illegal 0xFFFFFFFFFFFFFFFF#64)⟩

/-- Settles O5: the wires of the edge make it an accepting one. -/
theorem stepRunsTheDecodedCommand : Obligations.StepRunsTheDecodedCommand := by
  unfold Obligations.StepRunsTheDecodedCommand
  rintro s e rest i hb hin hr hv hc rfl
  rw [step_edge hb hin, clockEdge_of_accepts _ (accepts_of_wires hr hv hc), wordOnWires]

/-- Settles O60: the word of an item is the encoding of its command, and `RESET` is an edge with `rst`. -/
theorem assemblerItemsAreTheirCommands : Obligations.AssemblerItemsAreTheirCommands := by
  unfold Obligations.AssemblerItemsAreTheirCommands
  exact ⟨fun h => itemsOfEvent_offerEdge_encode (.add h), fun h => itemsOfEvent_offerEdge_encode (.check h),
    itemsOfEvent_offerEdge_encode (.len 0#64), rfl, fun x => itemsOfEvent_offerEdge_encode (.illegal x),
    itemsOfEvent_of_rst rfl⟩

end Sys2Proof.Machine
end

section
/-! PROOFS. Family 40_hash_fragment_extractor: the four fragments are the four 16-bit slices of the hash
(40_hash_fragment_extractor.md R90, R91). -/

namespace Sys2Proof.Machine

/-! ### A fragment as a slice -/

/-- The mask of R90 covers exactly the 16 bits that a fragment keeps. -/
theorem fragment_eq_extractLsb' (h : Hash) (i : Nat) : fragment h i = h.extractLsb' (16 * i) 16 := by
  have hmask : (0xFFFF#64).setWidth 16 = BitVec.allOnes 16 := by decide
  calc fragment h i
      = (h >>> (16 * i)).setWidth 16 &&& BitVec.allOnes 16 := by rw [fragment, BitVec.setWidth_and, hmask]
    _ = (h >>> (16 * i)).setWidth 16 := BitVec.and_allOnes
    _ = h.extractLsb' (16 * i) 16 := by ext t ht; simp

theorem toNat_fragment (h : Hash) (i : Nat) : (fragment h i).toNat = h.toNat / 2 ^ (16 * i) % 65536 := by
  rw [fragment_eq_extractLsb', BitVec.extractLsb'_toNat, Nat.shiftRight_eq_div_pow]

theorem getLsbD_fragment (h : Hash) (i : Nat) {t : Nat} (ht : t < 16) :
    (fragment h i).getLsbD t = h.getLsbD (16 * i + t) := by
  simp [fragment_eq_extractLsb', ht]

/-! ### The four fragments together -/

/-- Each fragment begins where the one below it ends. -/
theorem append_fragments (h : Hash) : fragment h 3 ++ fragment h 2 ++ fragment h 1 ++ fragment h 0 = h := by
  simp only [fragment_eq_extractLsb']
  rw [BitVec.extractLsb'_append_extractLsb'_eq_extractLsb' (by rfl),
    BitVec.extractLsb'_append_extractLsb'_eq_extractLsb' (by rfl),
    BitVec.extractLsb'_append_extractLsb'_eq_extractLsb' (by rfl)]
  exact BitVec.extractLsb'_eq_self

/-- The fragments are the digits of the hash in base 65536. -/
theorem toNat_eq_sum_fragments (h : Hash) :
    h.toNat = (fragment h 0).toNat + (fragment h 1).toNat * 2 ^ 16 + (fragment h 2).toNat * 2 ^ 32
      + (fragment h 3).toNat * 2 ^ 48 := by
  have hlt := h.isLt
  simp only [toNat_fragment]
  omega

/-! ### The obligations -/

/-- Settles O12: a fragment is a slice, whose value and bits the library gives. -/
theorem fragmentsAreSixteenBitSlices : Obligations.FragmentsAreSixteenBitSlices := by
  unfold Obligations.FragmentsAreSixteenBitSlices
  intro h i _
  exact ⟨toNat_fragment h i, fun t ht => getLsbD_fragment h i ht⟩

/-- Settles O13: the four slices are adjacent and cover all 64 bits. -/
theorem fragmentsReassembleTheHash : Obligations.FragmentsReassembleTheHash := by
  unfold Obligations.FragmentsReassembleTheHash
  intro h
  exact ⟨(append_fragments h).symm, toNat_eq_sum_fragments h⟩

end Sys2Proof.Machine
end

section
/-! PROOFS. Family 41_bit_array_indexer: the outputs of the indexer, their ranges, and which fragments share an address
(41_bit_array_indexer.md R100 to R108). -/

namespace Sys2Proof.Machine

/-! ### The outputs -/

section Outputs
variable (b : Build) (x : Fragment)

theorem index_position : (index b x).position = x.toNat % b.bitLen := rfl

theorem index_byteIndex : (index b x).byteIndex = (index b x).position / 8 := rfl

theorem index_bitInByte : (index b x).bitInByte = (index b x).position % 8 := rfl

theorem index_mask : (index b x).mask = 1#8 <<< (7 - (index b x).bitInByte) := rfl

theorem index_bitInByte_lt : (index b x).bitInByte < 8 := Nat.mod_lt _ (by omega)

theorem toNat_index_mask : (index b x).mask.toNat = 2 ^ (7 - (index b x).bitInByte) := by
  have key : ∀ k < 8, (1#8 <<< (7 - k)).toNat = 2 ^ (7 - k) := by decide
  rw [index_mask, key _ (index_bitInByte_lt b x)]

end Outputs

/-- The table of R42 lists the one-hot mask of each bit within the byte (R105). -/
theorem getElem?_maskTable {k : Nat} (hk : k < 8) :
    [0x80#8, 0x40#8, 0x20#8, 0x10#8, 0x08#8, 0x04#8, 0x02#8, 0x01#8][k]? = some (1#8 <<< (7 - k)) := by
  revert k
  decide

/-- The position alone fixes the other three outputs. -/
theorem index_congr_position {b c : Build} {x y : Fragment} (h : (index b x).position = (index c y).position) :
    index b x = index c y := by
  rw [index_position, index_position] at h
  simp only [index, h]

/-! ### The range of the position -/

theorem bitLen_pos {b : Build} (h : b.legal = true) : 0 < b.bitLen := Nat.mul_pos (by omega) (byteLen_pos h)

/-- The remainder never exceeds the fragment, which has 16 bits (R103). -/
theorem index_position_lt_65536 (b : Build) (x : Fragment) : (index b x).position < 65536 :=
  (Nat.mod_le _ _).trans_lt x.isLt

/-- A fragment below the modulus is its own position. -/
theorem index_position_of_lt {b : Build} {x : Fragment} (h : x.toNat < b.bitLen) :
    (index b x).position = x.toNat :=
  Nat.mod_eq_of_lt h

/-- From 65536 bits up the wrap does nothing (R107). -/
theorem index_position_of_bitLen_ge {b : Build} (h : 65536 ≤ b.bitLen) (x : Fragment) :
    (index b x).position = x.toNat :=
  index_position_of_lt (x.isLt.trans_le h)

/-! ### Access inside the array -/

theorem memRead_of_lt {s : State} {j : Nat} (h : j < s.build.byteLen) : memRead s j = .ok (byteAt s.mem j) := if_pos h

theorem memWrite_of_lt {s : State} {j : Nat} (h : j < s.build.byteLen) (v : Byte) :
    memWrite s j v = .ok { s with mem := setByteAt s.mem j v } := if_pos h

/-! ### Aliasing -/

/-- Fragments that differ by a multiple of the modulus have the same address (R106). -/
theorem index_eq_of_add_mul_bitLen {b : Build} {x y : Fragment} {q : Nat} (h : y.toNat = x.toNat + q * b.bitLen) :
    index b y = index b x := by
  refine index_congr_position ?_
  rw [index_position, index_position, h, Nat.add_mul_mod_self_right]

/-- From 65536 bits up no two fragments share an address. -/
theorem index_injective {b : Build} (h : 65536 ≤ b.bitLen) : Function.Injective (index b) := by
  intro x y hxy
  refine BitVec.eq_of_toNat_eq ?_
  rw [← index_position_of_bitLen_ge h x, ← index_position_of_bitLen_ge h y, hxy]

/-- Below 65536 bits the fragment equal to the modulus wraps to the address of fragment 0. -/
theorem exists_ne_index_eq {b : Build} (hpos : 0 < b.bitLen) (h : b.bitLen < 65536) :
    ∃ x y : Fragment, x ≠ y ∧ index b x = index b y := by
  have hM : (BitVec.ofNat 16 b.bitLen).toNat = b.bitLen := Nat.mod_eq_of_lt h
  refine ⟨BitVec.ofNat 16 b.bitLen, 0#16, fun h0 => ?_, index_eq_of_add_mul_bitLen (q := 1) ?_⟩
  · rw [h0] at hM
    exact hpos.ne hM
  · rw [hM, BitVec.toNat_zero, Nat.zero_add, Nat.one_mul]

/-! ### The obligations -/

/-- Settles O14: the outputs as computed, and that testing with the mask is testing the addressed bit. -/
theorem indexerOutputs : Obligations.IndexerOutputs := by
  unfold Obligations.IndexerOutputs
  intro b x m _
  have hsel : byteAt m (index b x).byteIndex &&& (index b x).mask ≠ 0#8 ↔ bitAt m (index b x).position = true := by
    rw [← and_mask_ne_zero, bne_iff_ne]
  exact ⟨index_position b x, index_byteIndex b x, index_bitInByte b x, toNat_index_mask b x,
    bitAt_eq_getLsbD m _, hsel.symm⟩

/-- Settles O15: the remainder is unique, and a 16-bit fragment wraps at most once at 64000. -/
theorem wrapIsTheTrueRemainder : Obligations.WrapIsTheTrueRemainder := by
  unfold Obligations.WrapIsTheTrueRemainder
  intro b x hb
  constructor
  · intro p
    simp only [index_position, Nat.mod_eq_iff, (bitLen_pos hb).ne', false_and, false_or, Nat.mul_comm b.bitLen]
  · intro hM
    have hx : x.toNat < 65536 := x.isLt
    rw [index_position, hM]
    split <;> omega

/-- Settles O16: the position is a remainder of a 16-bit number, and the byte index it gives lies in the array. -/
theorem addressesAreInRange : Obligations.AddressesAreInRange := by
  unfold Obligations.AddressesAreInRange
  intro b x hb
  have hp : (index b x).position < b.bitLen := Nat.mod_lt _ (bitLen_pos hb)
  have hj : (index b x).byteIndex < b.byteLen := index_byteIndex_lt x (byteLen_pos hb)
  refine ⟨lt_min hp (index_position_lt_65536 b x), hj, Nat.le_of_lt_succ (index_bitInByte_lt b x),
    (Nat.div_add_mod _ 8).symm, Nat.le_of_lt_succ (index_byteIndex_lt_8192 b x), ?_⟩
  rintro s v rfl
  exact ⟨memRead_of_lt hj, _, memWrite_of_lt hj v⟩

/-- Settles O17: the eight bits within a byte give the eight entries of the table. -/
theorem maskIsOneHot : Obligations.MaskIsOneHot := by
  unfold Obligations.MaskIsOneHot
  intro b x
  have hk : (index b x).bitInByte < 8 := index_bitInByte_lt b x
  refine ⟨Nat.le_of_lt_succ hk, index_mask b x ▸ getElem?_maskTable hk, fun t ht => ?_⟩
  rw [index_mask_getLsbD b x t ht, decide_eq_true_iff, index_bitInByte]

/-- Settles O18: the wrap drops multiples of the modulus, and there are fragments to wrap exactly below 65536 bits. -/
theorem fragmentsAliasThroughTheWrap : Obligations.FragmentsAliasThroughTheWrap := by
  unfold Obligations.FragmentsAliasThroughTheWrap
  intro b hb
  refine ⟨fun x y q h => index_eq_of_add_mul_bitLen h, ?_, exists_ne_index_eq (bitLen_pos hb)⟩
  rintro ⟨x, y, hne, hxy⟩
  by_contra hge
  exact hne (index_injective (Nat.le_of_not_lt hge) hxy)

/-- Settles O19: the modulus of this build and that of the build with 65536 bits both leave every fragment as it is. -/
theorem largeArraysAddressTheFirst8192Bytes : Obligations.LargeArraysAddressTheFirst8192Bytes := by
  unfold Obligations.LargeArraysAddressTheFirst8192Bytes
  intro b x cw hL
  have hp : (index b x).position = x.toNat := index_position_of_bitLen_ge (Nat.mul_le_mul_left 8 hL) x
  have hM : 65536 ≤ (Build.mk 65536 cw).bitLen := by simp only [Build.bitLen, Build.byteLen]; omega
  have hq : (index (Build.mk 65536 cw) x).position = x.toNat := index_position_of_bitLen_ge hM x
  exact ⟨hp, index_byteIndex_lt_8192 b x, index_congr_position (hp.trans hq.symm)⟩

end Sys2Proof.Machine
end

section
/-! PROOFS. Family 42_parallel_bit_setter: the merged SET equals its lanes applied one after another in any order, and
what SET does to the bits of the array (42_parallel_bit_setter.md R116 to R118). -/

namespace Sys2Proof.Machine

/-! ### The lanes one after another -/

/-- The merged mask of a byte does not depend on the order of the lanes (R118). -/
theorem laneAcc_perm {ks ls : List Lane} (h : ks.Perm ls) (j : Nat) : laneAcc ks j = laneAcc ls j := by
  refine BitVec.eq_of_getLsbD_eq fun t _ => ?_
  rw [laneAcc_getLsbD, laneAcc_getLsbD, h.any_eq]

/-- One lane in range: its byte is read and written back with the lane's mask, and the other lanes see that array. -/
theorem setOneByOne_cons_of_lt {l : Lane} {s : State} (ls : List Lane) (h : l.byteIndex < s.build.byteLen) :
    setOneByOne (l :: ls) s =
      setOneByOne ls { s with mem := setByteAt s.mem l.byteIndex (byteAt s.mem l.byteIndex ||| l.mask) } := by
  simp only [setOneByOne, memRead_of_lt h, memWrite_of_lt h]

/-- What the lanes do one after another, in range: no fault, only the array changes, every byte becomes itself OR
`acc(j)`, and the canonical form is kept. -/
theorem setOneByOne_ok (ls : List Lane) (s : State) (h : ∀ l ∈ ls, l.byteIndex < s.build.byteLen) :
    ∃ m, setOneByOne ls s = .ok { s with mem := m } ∧ (∀ j, byteAt m j = byteAt s.mem j ||| laneAcc ls j) ∧
      (Memory.wf s.mem → Memory.wf m) := by
  induction ls generalizing s with
  | nil => exact ⟨s.mem, rfl, by simp [laneAcc], id⟩
  | cons l ls ih =>
    obtain ⟨hl, hls⟩ := List.forall_mem_cons.1 h
    obtain ⟨m, hset, hbytes, hwf⟩ :=
      ih { s with mem := setByteAt s.mem l.byteIndex (byteAt s.mem l.byteIndex ||| l.mask) } hls
    refine ⟨m, (setOneByOne_cons_of_lt ls hl).trans hset, fun j => ?_, fun hs => hwf (wf_setByteAt _ _ _ hs)⟩
    rw [hbytes, byteAt_setByteAt, laneAcc]
    by_cases hj : j = l.byteIndex
    · simp [hj, BitVec.or_assoc]
    · simp [hj, Ne.symm hj]

/-! ### The bits that SET sets -/

/-- In the canonical form, equal bits are equal arrays. -/
theorem Memory.ext_bitAt {m m' : Memory} (hm : Memory.wf m) (hm' : Memory.wf m') (h : ∀ p, bitAt m p = bitAt m' p) :
    m = m' :=
  Memory.ext hm hm' fun _ => byteAt_eq_of_bitAt fun p _ => h p

/-- SET of an operand sets exactly its four bits besides those that were, by an OR into every byte (R116). -/
theorem setLanes_lanesOf {s : State} (h : Hash) (hb : s.build.legal = true) :
    ∃ m, setLanes (lanesOf s.build h) s = .ok { s with mem := m } ∧
      (∀ j, byteAt m j = byteAt s.mem j ||| laneAcc (lanesOf s.build h) j) ∧
      (∀ p, bitAt m p = (bitAt s.mem p || decide (p ∈ positionsOf s.build h))) ∧ (Memory.wf s.mem → Memory.wf m) := by
  obtain ⟨m, hset, hbytes, hwf, -⟩ := setLanes_ok _ s (lanesOf_byteIndex_lt h (byteLen_pos hb))
  exact ⟨m, hset, hbytes, bitAt_of_or_laneAcc (fun _ => mem_lanesOf) hbytes, hwf⟩

/-- Lane 0 is always there, so an operand has a position (R117). -/
theorem position_zero_mem_positionsOf (b : Build) (h : Hash) :
    (index b (fragment h 0)).position ∈ positionsOf b h :=
  List.mem_cons_self

theorem one_le_length_dedup_positionsOf (b : Build) (h : Hash) : 1 ≤ (positionsOf b h).dedup.length :=
  List.length_pos_of_mem (List.mem_dedup.2 (position_zero_mem_positionsOf b h))

theorem length_dedup_positionsOf_le (b : Build) (h : Hash) : (positionsOf b h).dedup.length ≤ 4 :=
  (List.dedup_sublist _).length_le

/-! ### The obligations -/

/-- Settles O21: both ways OR the same merged mask into every byte, and in the canonical form equal bytes are equal
arrays. -/
theorem setEqualsLanesInAnyOrder : Obligations.SetEqualsLanesInAnyOrder := by
  unfold Obligations.SetEqualsLanesInAnyOrder
  intro s h ls hb hwf hperm
  have inArray : ∀ l ∈ lanesOf s.build h, l.byteIndex < s.build.byteLen := lanesOf_byteIndex_lt h (byteLen_pos hb)
  obtain ⟨m, hset, hbytes, hm, -⟩ := setLanes_ok _ s inArray
  obtain ⟨m', hset', hbytes', hm'⟩ := setOneByOne_ok ls s fun l hl => inArray l (hperm.mem_iff.1 hl)
  have heq : m = m' := Memory.ext (hm hwf) (hm' hwf) fun j => by rw [hbytes, hbytes', laneAcc_perm hperm]
  exact ⟨_, hset, heq ▸ hset'⟩

/-- Settles O22: SET ORs the four bits into the array, and an OR clears nothing and adds nothing that was there. -/
theorem setConsequences : Obligations.SetConsequences := by
  unfold Obligations.SetConsequences
  intro s h hb hwf
  obtain ⟨m, hset, hbytes, hbits, hm⟩ := setLanes_lanesOf h hb
  have hones : ∀ p ∈ positionsOf s.build h, bitAt m p = true := fun p hp => by simp [hbits, hp]
  refine ⟨_, hset, hones, fun j => ?_, fun p hp => by simp [hbits, hp], one_le_length_dedup_positionsOf _ h,
    length_dedup_positionsOf_le _ h, ?_, fun hall => ?_⟩
  · ext i
    simpa [hbytes] using Or.inl
  · exact ⟨_, index_byteIndex_lt (fragment h 0) (byteLen_pos hb),
      byteAt_ne_zero_of_bitAt (hones _ (position_zero_mem_positionsOf _ h))⟩
  · refine Memory.ext_bitAt (hm hwf) hwf fun p => ?_
    by_cases hp : p ∈ positionsOf s.build h
    · rw [hones p hp, hall p hp]
    · simp [hbits, hp]

end Sys2Proof.Machine
end

section
/-! PROOFS. Family 43_cmd_add: what `ADD` does to the array, the counter and the responses, and that the array it ORs in
depends on the operand and the build alone (43_cmd_add.md R130 to R133). -/

namespace Sys2Proof.Machine

/-- `ADD` in a ready state: SET of the operand's lanes, the counter one up, and the response (0, 0, 0) (R130). -/
theorem exec_add_of_ready {s : State} (h : Hash) (hs : Ready s) :
    ∃ m, exec (.add h) s =
        .next (respond (countUp { s with mem := m }) { err := .none, hit := false, count := 0 }) ∧
      (∀ j, byteAt m j = byteAt s.mem j ||| laneAcc (lanesOf s.build h) j) ∧
      ∀ p, bitAt m p = (bitAt s.mem p || decide (p ∈ positionsOf s.build h)) := by
  obtain ⟨m, hset, hbytes, hbits, -⟩ := setLanes_lanesOf h hs.1
  exact ⟨m, exec_add_of_setLanes hs hset, hbytes, hbits⟩

@[simp] theorem bitAt_nil (p : Nat) : bitAt [] p = false := by simp [bitAt_eq_getLsbD, byteAt]

/-- The array `D(h)` of R131: what SET makes of the empty array. Its bytes are the merged masks of the lanes, and its
bits are those of the operand. -/
theorem exists_array_of_operand {b : Build} (h : Hash) (hb : b.legal = true) :
    ∃ d, (∀ j, byteAt d j = laneAcc (lanesOf b h) j) ∧ ∀ p, bitAt d p = true ↔ p ∈ positionsOf b h := by
  obtain ⟨d, -, hbytes, hbits, -⟩ := setLanes_lanesOf (s := State.ofBuild b) h hb
  have hempty (p : Nat) : bitAt (State.ofBuild b).mem p = false := bitAt_nil p
  refine ⟨d, fun j => (hbytes j).trans BitVec.zero_or, fun p => ?_⟩
  rw [hbits, hempty, Bool.false_or, decide_eq_true_iff]
  rfl

/-! ### The obligations -/

/-- Settles O23: SET sets the four bits, and the rest of `ADD` is the counter and the response. -/
theorem addResult : Obligations.AddResult := by
  unfold Obligations.AddResult
  intro s h hs
  obtain ⟨m, hexec, -, hbits⟩ := exec_add_of_ready h hs
  exact ⟨m, hexec, hbits⟩

/-- Settles O24: every byte is ORed with the merged mask of the lanes, which no state enters. -/
theorem addOrsAnArrayOfTheOperand : Obligations.AddOrsAnArrayOfTheOperand := by
  unfold Obligations.AddOrsAnArrayOfTheOperand
  intro b h hb
  obtain ⟨d, hd, hbits⟩ := exists_array_of_operand h hb
  refine ⟨d, hbits, ?_⟩
  rintro s rfl hi
  obtain ⟨m, hexec, hbytes, -⟩ := exec_add_of_ready h ⟨hb, hi⟩
  exact ⟨_, hexec, fun j => (hbytes j).trans (by rw [hd])⟩

end Sys2Proof.Machine
end

section
/-! PROOFS. Family 44_cmd_query: what `CHECK` and `LEN` answer, that a miss is exact, and that a hit sees no more of a hash
than its set of positions (44_cmd_query.md R140, R143, R144, R145). -/

namespace Sys2Proof.Machine

/-! ### The verdict of TEST -/

theorem positionsOf_eq_map_range (b : Build) (h : Hash) :
    positionsOf b h = (List.range 4).map fun i => (index b (fragment h i)).position := rfl

/-- The verdict of TEST on an array: every bit of the operand is 1 (R119). -/
def hitOf (b : Build) (m : Memory) (h : Hash) : Bool := (positionsOf b h).all (bitAt m)

theorem hitOf_eq_true_iff {b : Build} {m : Memory} {h : Hash} :
    hitOf b m h = true ↔ ∀ p ∈ positionsOf b h, bitAt m p = true := List.all_eq_true

theorem hitOf_eq_true_iff_lanes {b : Build} {m : Memory} {h : Hash} :
    hitOf b m h = true ↔ ∀ i, i < 4 → bitAt m (index b (fragment h i)).position = true := by
  simp only [hitOf_eq_true_iff, positionsOf_eq_map_range, List.forall_mem_map, List.mem_range]

/-- Only the set of positions matters to the verdict. -/
theorem hitOf_congr {b : Build} {g h : Hash} (hpos : ∀ p, p ∈ positionsOf b g ↔ p ∈ positionsOf b h) (m : Memory) :
    hitOf b m g = hitOf b m h := by
  rw [Bool.eq_iff_iff, hitOf_eq_true_iff, hitOf_eq_true_iff]
  exact forall_congr' fun p => imp_congr_left (hpos p)

theorem testLanes_lanesOf {s : State} (h : Hash) (hb : s.build.legal = true) :
    testLanes (lanesOf s.build h) s = .ok (hitOf s.build s.mem h) := by
  rw [testLanes_ok _ s (lanesOf_byteIndex_lt h (byteLen_pos hb)), Except.ok.injEq, Bool.eq_iff_iff, List.all_eq_true,
    hitOf_eq_true_iff, positionsOf, List.forall_mem_map]
  refine forall₂_congr fun l hl => ?_
  obtain ⟨x, rfl⟩ := mem_lanesOf hl
  rw [and_mask_ne_zero]

/-- `CHECK` in a ready state answers the verdict of TEST (R140). -/
theorem exec_check_of_ready {s : State} (h : Hash) (hs : Ready s) :
    exec (.check h) s = .next (respond s { err := .none, hit := hitOf s.build s.mem h, count := 0 }) :=
  exec_check_of_testLanes hs (testLanes_lanesOf h hs.1)

/-! ### The bits after a run of commands -/

theorem runCommands_build {cs : List Instr} {s t : State} (ht : runCommands cs s = .next t) : t.build = s.build := by
  induction cs generalizing s with
  | nil => cases ht; rfl
  | cons i cs ih =>
    obtain ⟨u, hu, ht⟩ := runCommands_cons_next ht
    rw [ih ht, exec_build hu]

/-- No run of commands clears a bit (R31). -/
theorem bitAt_runCommands {cs : List Instr} {s t : State} (ht : runCommands cs s = .next t) {p : Nat}
    (hp : bitAt s.mem p = true) : bitAt t.mem p = true := by
  induction cs generalizing s with
  | nil => cases ht; exact hp
  | cons i cs ih =>
    obtain ⟨u, hu, ht⟩ := runCommands_cons_next ht
    exact ih ht (bitAt_exec hu hp)

theorem bitAt_exec_add {s t : State} {h : Hash} (ht : exec (.add h) s = .next t) {p : Nat}
    (hp : p ∈ positionsOf s.build h) : bitAt t.mem p = true := by
  cases exec_next ht with
  | query isQuery => cases isQuery
  | add bits => simp [bits, hp]

/-- An `ADD` anywhere in a run has its four bits set at the end. -/
theorem bitAt_runCommands_of_add_mem {cs : List Instr} {s t : State} {h : Hash} (ht : runCommands cs s = .next t)
    (hmem : .add h ∈ cs) {p : Nat} (hp : p ∈ positionsOf s.build h) : bitAt t.mem p = true := by
  induction cs generalizing s with
  | nil => cases hmem
  | cons i cs ih =>
    obtain ⟨u, hu, hrest⟩ := runCommands_cons_next ht
    cases hmem with
    | head => exact bitAt_runCommands hrest (bitAt_exec_add hu hp)
    | tail _ hmem => exact ih hrest hmem (exec_build hu ▸ hp)

/-- A hash hits after a run whose `ADD`s cover its positions. -/
theorem hitOf_runCommands_of_covered {cs : List Instr} {s t : State} {h : Hash} (ht : runCommands cs s = .next t)
    (hcov : ∀ p ∈ positionsOf s.build h, ∃ g, .add g ∈ cs ∧ p ∈ positionsOf s.build g) :
    hitOf t.build t.mem h = true := by
  rw [runCommands_build ht, hitOf_eq_true_iff]
  intro p hp
  obtain ⟨g, hg, hpg⟩ := hcov p hp
  exact bitAt_runCommands_of_add_mem ht hg hpg

/-! ### Hashes with the same positions -/

/-- `ADD` of either of two hashes with the same positions sets the same bits, so the two arrays have the same bytes and in
canonical form are equal (R162). -/
theorem exec_add_congr_positions {s : State} {g h : Hash} (hs : Ready s)
    (hpos : ∀ p, p ∈ positionsOf s.build g ↔ p ∈ positionsOf s.build h) :
    ∃ t u, exec (.add g) s = .next t ∧ exec (.add h) s = .next u ∧ (∀ j, byteAt t.mem j = byteAt u.mem j) ∧
      t.count = u.count ∧ t.pending = u.pending ∧ (Memory.wf s.mem → t = u) := by
  obtain ⟨m, hg, -, hbits, hm⟩ := setLanes_lanesOf g hs.1
  obtain ⟨m', hh, -, hbits', hm'⟩ := setLanes_lanesOf h hs.1
  have heq (p : Nat) : bitAt m p = bitAt m' p := by simp only [hbits, hbits', hpos]
  refine ⟨_, _, exec_add_of_setLanes hs hg, exec_add_of_setLanes hs hh,
    fun _ => byteAt_eq_of_bitAt fun p _ => heq p, rfl, rfl, fun hwf => ?_⟩
  rw [Memory.ext_bitAt (hm hwf) (hm' hwf) heq]

/-! ### The obligations -/

/-- Settles O27: TEST answers the conjunction of the four bits, and the rest is the response. -/
theorem checkResult : Obligations.CheckResult := by
  unfold Obligations.CheckResult
  exact fun s h hs => ⟨hitOf s.build s.mem h, exec_check_of_ready h hs, hitOf_eq_true_iff_lanes⟩

/-- Settles O42: had `ADD h` been executed, its own positions would be covered, and `CHECK h` would hit. -/
theorem missesAreExact : Obligations.MissesAreExact := by
  unfold Obligations.MissesAreExact
  intro s t u cs h _ ht hu hmiss hmem
  have hhit : hitOf t.build t.mem h = true := hitOf_runCommands_of_covered ht fun p hp => ⟨h, hmem, hp⟩
  cases hu.symm.trans (exec_check_of_ready h (exec_ready hu))
  simp [hhit] at hmiss

/-- Settles O43: a run of `ADD`s from a ready state completes with the bits that it covers, and both the verdict and the
array after `ADD` see only the set of positions. -/
theorem coveredHashesHit : Obligations.CoveredHashesHit := by
  unfold Obligations.CoveredHashesHit
  constructor
  · intro s hs h hready hcov
    obtain ⟨_, t, ht, -, hans⟩ := runCommands_answers hready (hs.map .add)
    have hhit : hitOf t.build t.mem h = true := hitOf_runCommands_of_covered ht fun p hp => by
      obtain ⟨g, hg, hpg⟩ := hcov p hp
      exact ⟨g, List.mem_map_of_mem hg, hpg⟩
    exact ⟨t, ht, hhit ▸ exec_check_of_ready h hans.ready⟩
  · intro s g h hready hpos
    have hcheck := exec_check_of_ready g hready
    rw [hitOf_congr hpos] at hcheck
    exact ⟨⟨_, hcheck, exec_check_of_ready h hready⟩, exec_add_congr_positions hready hpos⟩

/-- Settles O28: the guard passes in a ready state, and no field but the responses is written. -/
theorem lenResult : Obligations.LenResult := by
  unfold Obligations.LenResult
  exact fun _ x hs => exec_len_of_ready hs x

end Sys2Proof.Machine
end

section
/-! PROOFS. Family 45_word_level_and_laws: what a run of commands makes of the array and the counter, what a query answers,
and the laws of the filter that follow (45_word_level_and_laws.md R151, R155 to R158, R160, R161, R163 to R165). -/

namespace Sys2Proof.Machine

/-! ### The bytes that a command writes -/

theorem length_writtenBytes_le (b : Build) (i : Instr) : (writtenBytes b i).length ≤ 4 := by
  cases i with
  | len x => exact Nat.zero_le 4
  | add h => exact Nat.le_refl 4
  | check h => exact Nat.zero_le 4
  | illegal x => exact Nat.zero_le 4

theorem lt_byteLen_of_mem_writtenBytes {b : Build} (hL : 0 < b.byteLen) {i : Instr} {j : Nat}
    (hj : j ∈ writtenBytes b i) : j < b.byteLen := by
  cases i with
  | len x => cases hj
  | add h =>
    obtain ⟨l, hl, rfl⟩ := List.mem_map.1 hj
    exact lanesOf_byteIndex_lt h hL l hl
  | check h => cases hj
  | illegal x => cases hj

/-! ### The array after a run -/

/-- The positions of an operand depend on the length in bytes alone (R160). -/
theorem positionsOf_congr_byteLen {b c : Build} (hL : b.byteLen = c.byteLen) (h : Hash) :
    positionsOf b h = positionsOf c h := by
  simp only [positionsOf, lanesOf, index_congr_byteLen hL]

/-- A bit is set after a command if it was before or the command is an `ADD` of it. -/
theorem bitAt_exec_iff {i : Instr} {s t : State} (ht : exec i s = .next t) (p : Nat) :
    bitAt t.mem p = true ↔ bitAt s.mem p = true ∨ ∃ h, i = .add h ∧ p ∈ positionsOf s.build h := by
  cases exec_next ht with
  | query isQuery =>
    have hne (h : Hash) : i ≠ .add h := by
      rintro rfl
      cases isQuery
    simp [hne]
  | add bits => simp [bits]

/-- A bit is set after a run if it was before or the run has an `ADD` of it. -/
theorem bitAt_runCommands_iff {cs : List Instr} {s t : State} (ht : runCommands cs s = .next t) (p : Nat) :
    bitAt t.mem p = true ↔ bitAt s.mem p = true ∨ ∃ h, .add h ∈ cs ∧ p ∈ positionsOf s.build h := by
  induction cs generalizing s with
  | nil =>
    cases ht
    simp
  | cons i cs ih =>
    obtain ⟨u, hu, ht⟩ := runCommands_cons_next ht
    rw [ih ht, bitAt_exec_iff hu, exec_build hu, or_assoc]
    simp only [List.mem_cons, or_and_right, exists_or, eq_comm]

theorem wf_exec {i : Instr} {s t : State} (ht : exec i s = .next t) (hs : Memory.wf s.mem) : Memory.wf t.mem := by
  cases exec_next ht with
  | query => exact hs
  | add _ wf => exact wf hs

theorem wf_runCommands {cs : List Instr} {s t : State} (ht : runCommands cs s = .next t) (hs : Memory.wf s.mem) :
    Memory.wf t.mem := by
  induction cs generalizing s with
  | nil =>
    cases ht
    exact hs
  | cons i cs ih =>
    obtain ⟨u, hu, ht⟩ := runCommands_cons_next ht
    exact ih ht (wf_exec hu hs)

/-- Blocks of equal length that start from one array in canonical form and execute the same set of `ADD`s come to the same
array (R157, R160). -/
theorem runCommands_mem_congr {cs cs' : List Instr} {s s' t t' : State} (ht : runCommands cs s = .next t)
    (ht' : runCommands cs' s' = .next t') (hwf : Memory.wf s.mem) (hmem : s.mem = s'.mem)
    (hL : s.build.byteLen = s'.build.byteLen) (hadds : ∀ h, .add h ∈ cs ↔ .add h ∈ cs') : t.mem = t'.mem := by
  refine Memory.ext_bitAt (wf_runCommands ht hwf) (wf_runCommands ht' (hmem ▸ hwf)) fun p => ?_
  rw [Bool.eq_iff_iff, bitAt_runCommands_iff ht, bitAt_runCommands_iff ht', hmem]
  simp only [hadds, positionsOf_congr_byteLen hL]

/-! ### The counter after a run -/

/-- The counter after one more `ADD` (R132). -/
def nextCount (b : Build) (n : Nat) : Nat := (n + 1) % 2 ^ b.cw

/-- A run moves the counter once for each `ADD`, from any value. -/
theorem runCommands_count_iterate {cs : List Instr} {s t : State} (ht : runCommands cs s = .next t) :
    t.count = (nextCount s.build)^[cs.countP isAdd] s.count := by
  induction cs generalizing s with
  | nil =>
    cases ht
    rfl
  | cons i cs ih =>
    obtain ⟨u, hu, ht⟩ := runCommands_cons_next ht
    rw [ih ht, exec_count hu, exec_build hu]
    cases hi : isAdd i <;> simp [hi, nextCount]

/-! ### What a command answers -/

/-- The response of a command to the state that it finds (R64). -/
def answerOf (s : State) : Instr → Response
  | .len _ => { err := .none, hit := false, count := s.count }
  | .add _ => { err := .none, hit := false, count := 0 }
  | .check h => { err := .none, hit := hitOf s.build s.mem h, count := 0 }
  | .illegal _ => { err := .illegalCommand, hit := false, count := 0 }

/-- Every `ADD` answers (0, 0, 0) (R133). -/
theorem runCommands_adds_pending {hs : List Hash} {s t : State} (ht : runCommands (hs.map .add) s = .next t) :
    t.pending = s.pending ++ List.replicate hs.length { err := .none, hit := false, count := 0 } := by
  induction hs generalizing s with
  | nil =>
    cases ht
    simp
  | cons h hs ih =>
    obtain ⟨u, hu, ht⟩ := runCommands_cons_next ht
    obtain ⟨m, hadd, -⟩ := exec_add_of_ready h (exec_ready hu)
    cases hu.symm.trans hadd
    simp [ih ht, List.replicate_succ]

theorem exec_query_of_ready {i : Instr} {s : State} (hs : Ready s) (hi : isAdd i = false) :
    exec i s = .next (respond s (answerOf s i)) := by
  cases i with
  | len x => exact exec_len_of_ready hs x
  | add h => cases hi
  | check h => exact exec_check_of_ready h hs
  | illegal x => exact exec_illegal_of_ready hs x

/-- A run of queries only responds, each query to the state before the run (R141). -/
theorem runCommands_queries_of_ready {cs : List Instr} {s : State} (hs : Ready s)
    (hcs : ∀ i ∈ cs, isAdd i = false) :
    runCommands cs s = .next { s with pending := s.pending ++ cs.map (answerOf s) } := by
  induction cs generalizing s with
  | nil => simp [runCommands]
  | cons i cs ih =>
    obtain ⟨hi, hcs⟩ := List.forall_mem_cons.1 hcs
    have hanswers : answerOf (respond s (answerOf s i)) = answerOf s := by
      funext k
      cases k <;> rfl
    simp only [runCommands, exec_query_of_ready hs hi]
    rw [ih (s := respond s (answerOf s i)) hs hcs, hanswers]
    simp [respond]

/-- A run goes on from where its first part ends. -/
theorem runCommands_append_of_next {cs : List Instr} {s t : State} (ht : runCommands cs s = .next t)
    (ds : List Instr) : runCommands (cs ++ ds) s = runCommands ds t := by
  induction cs generalizing s with
  | nil =>
    cases ht
    rfl
  | cons i cs ih =>
    obtain ⟨u, hu, ht⟩ := runCommands_cons_next ht
    simp only [List.cons_append, runCommands, hu, ih ht]

/-! ### The verdict after a run -/

/-- No hash hits on the empty array: an operand has at least one position (R158). -/
theorem hitOf_nil (b : Build) (h : Hash) : hitOf b [] h = false :=
  List.all_eq_false.2 ⟨_, position_zero_mem_positionsOf b h, by simp⟩

/-- A hash that hits before a run hits after it: no run clears a bit. -/
theorem hitOf_runCommands {cs : List Instr} {s t : State} {h : Hash} (ht : runCommands cs s = .next t)
    (hhit : hitOf s.build s.mem h = true) : hitOf t.build t.mem h = true := by
  rw [runCommands_build ht, hitOf_eq_true_iff]
  exact fun p hp => bitAt_runCommands ht (hitOf_eq_true_iff.1 hhit p hp)

/-- A hash hits after a run that adds it (R155). -/
theorem hitOf_runCommands_of_add_mem {cs : List Instr} {s t : State} {h : Hash} (ht : runCommands cs s = .next t)
    (hmem : .add h ∈ cs) : hitOf t.build t.mem h = true :=
  hitOf_runCommands_of_covered ht fun _ hp => ⟨h, hmem, hp⟩

/-- A run from a ready state completes, and `CHECK` after it answers the verdict on the array at its end. -/
theorem check_after_run {cs : List Instr} {s : State} {h : Hash} {hit : Bool} (hs : Ready s)
    (hhit : ∀ t, runCommands cs s = .next t → hitOf t.build t.mem h = hit) :
    ∃ t, runCommands cs s = .next t ∧
      exec (.check h) t = .next { t with pending := t.pending ++ [{ err := .none, hit := hit, count := 0 }] } := by
  obtain ⟨_, t, ht, -, hans⟩ := runCommands_answers hs cs
  exact ⟨t, ht, hhit t ht ▸ exec_check_of_ready h hans.ready⟩

/-! ### The obligations -/

/-- Settles O35: the four lanes of an `ADD` address at most four bytes, all in the array, and no other command writes. -/
theorem atMostFourBytesChange : Obligations.AtMostFourBytesChange := by
  unfold Obligations.AtMostFourBytesChange
  intro s t i ht
  exact ⟨(List.dedup_sublist _).length_le.trans (length_writtenBytes_le _ i),
    fun _ => lt_byteLen_of_mem_writtenBytes (byteLen_pos (exec_ready ht).1),
    fun _ => byteAt_exec_of_not_written ht⟩

/-- Settles O36: the two states hold the same filter, which is all that a command reads. -/
theorem outcomeDependsOnArrayAndCounterAlone : Obligations.OutcomeDependsOnArrayAndCounterAlone := by
  unfold Obligations.OutcomeDependsOnArrayAndCounterAlone
  intro s s' i hs hs' hbuild hmem hcount
  have hsame : SameFilter s s' := ⟨hs.1, hbuild.symm, hmem.symm, hcount.symm, hs.2.trans hs'.2.symm⟩
  exact exec_congr_of_ready hsame hs.2 i

/-- Settles O41: the run has `ADD h` in it, so its bits are set at the end. -/
theorem noFalseNegatives : Obligations.NoFalseNegatives := by
  unfold Obligations.NoFalseNegatives
  intro s before after h hs
  exact check_after_run hs fun t ht => hitOf_runCommands_of_add_mem ht (by simp)

/-- Settles O44: the second `ADD` sets bits that the first has set, and in canonical form equal bits are equal arrays. -/
theorem insertIsIdempotentOnTheArray : Obligations.InsertIsIdempotentOnTheArray := by
  unfold Obligations.InsertIsIdempotentOnTheArray
  intro s h hs hwf
  obtain ⟨_, t, ht, hans⟩ := exec_answers hs (.add h)
  obtain ⟨u, hu⟩ := exec_completes_of_ready (.add h) hans.ready
  have hbuild : t.build = s.build := exec_build ht
  have hwf' : Memory.wf t.mem := wf_exec ht hwf
  refine ⟨t, u, ht, hu, Memory.ext_bitAt (wf_exec hu hwf') hwf' fun p => ?_, ?_⟩
  · rw [Bool.eq_iff_iff, bitAt_exec_iff hu, hbuild, bitAt_exec_iff ht, or_assoc, or_self]
  · simpa [isAdd, hbuild] using exec_count hu

/-- Settles O45: a permutation has the same set of `ADD`s and as many of them. -/
theorem addOrderIsIrrelevant : Obligations.AddOrderIsIrrelevant := by
  unfold Obligations.AddOrderIsIrrelevant
  intro s hs hs' hready hwf hperm
  have hadds : (hs.map Instr.add).Perm (hs'.map Instr.add) := hperm.map _
  obtain ⟨_, t, ht, -⟩ := runCommands_answers hready (hs.map .add)
  obtain ⟨_, t', ht', -⟩ := runCommands_answers hready (hs'.map .add)
  refine ⟨t, t', ht, ht', runCommands_mem_congr ht ht' hwf rfl rfl fun _ => hadds.mem_iff, ?_⟩
  rw [runCommands_count_iterate ht, runCommands_count_iterate ht', hadds.countP_eq]

/-- Settles O46: both blocks start from the empty array, and the positions depend on `L` alone. -/
theorem equalLengthBlocksAgree : Obligations.EqualLengthBlocksAgree := by
  unfold Obligations.EqualLengthBlocksAgree
  intro s s' hs hs' hb hb' hL hperm
  have hadds : (hs.map Instr.add).Perm (hs'.map Instr.add) := hperm.map _
  obtain ⟨_, t, ht, -⟩ := runCommands_answers (s := resetEvent s) ⟨hb, rfl⟩ (hs.map .add)
  obtain ⟨_, t', ht', -⟩ := runCommands_answers (s := resetEvent s') ⟨hb', rfl⟩ (hs'.map .add)
  have hwf : Memory.wf (resetEvent s).mem := memoryOf_wf [] 0
  exact ⟨t, t', ht, ht', runCommands_mem_congr ht ht' hwf rfl hL fun _ => hadds.mem_iff⟩

/-- Settles O47: queries leave the empty array of the reset event, on which nothing hits. -/
theorem emptyFilterRejects : Obligations.EmptyFilterRejects := by
  unfold Obligations.EmptyFilterRejects
  intro s cs h hb hcs
  have hs : Ready (resetEvent s) := ⟨hb, rfl⟩
  refine check_after_run hs fun t ht => ?_
  cases ht.symm.trans (runCommands_queries_of_ready hs hcs)
  exact hitOf_nil s.build h

/-- Settles O48: the response shows that all four bits are set, and they stay so. -/
theorem hitsAreMonotone : Obligations.HitsAreMonotone := by
  unfold Obligations.HitsAreMonotone
  intro s u cs h hu hresp
  have hs : Ready s := exec_ready hu
  cases hu.symm.trans (exec_check_of_ready h hs)
  have hhit : hitOf s.build s.mem h = true := by simpa using hresp
  exact check_after_run hs fun t ht => hitOf_runCommands ht hhit

/-- Settles O49: the reset event sets the counter to 0, and the run adds its number of `ADD`s. -/
theorem counterLaw : Obligations.CounterLaw := by
  unfold Obligations.CounterLaw
  intro s cs x hb
  obtain ⟨_, t, ht, -, hans⟩ := runCommands_answers (s := resetEvent s) ⟨hb, rfl⟩ cs
  have hcount : t.count = cs.countP isAdd % 2 ^ s.build.cw := by simpa using runCommands_count ht (by simp)
  exact ⟨t, ht, hcount ▸ exec_len_of_ready hans.ready x⟩

/-- Settles O52: the two `ADD`s leave a state in which both words hit and the counter is 2, and the queries after them all
answer from that state. -/
theorem wordsAddedAreFound : Obligations.WordsAddedAreFound := by
  unfold Obligations.WordsAddedAreFound
  intro hash64 s a b c hb hcw
  obtain ⟨_, t, ht, -, hans⟩ :=
    runCommands_answers (s := resetEvent s) ⟨hb, rfl⟩ ([hash64 a, hash64 b].map .add)
  have hcount : t.count = 2 := by
    calc t.count = (0 + 2) % 2 ^ s.build.cw := runCommands_count ht (by simp)
      _ = 2 := Nat.mod_eq_of_lt (hcw.trans_lt s.build.cw.lt_two_pow_self)
  have hhitA : hitOf t.build t.mem (hash64 a) = true := hitOf_runCommands_of_add_mem ht (by simp)
  have hhitB : hitOf t.build t.mem (hash64 b) = true := hitOf_runCommands_of_add_mem ht (by simp)
  have hqueries := runCommands_queries_of_ready hans.ready (cs := [checkWord hash64 a, checkWord hash64 b,
    checkWord hash64 c, checkWord hash64 c, .len 0#64]) (by simp [checkWord, isAdd])
  refine ⟨_, hitOf t.build t.mem (hash64 c), (runCommands_append_of_next ht _).trans hqueries, ?_⟩
  simp [runCommands_adds_pending ht, checkWord, answerOf, hhitA, hhitB, hcount]

end Sys2Proof.Machine
end

section
/-! PROOFS. Family 60_exceptions: what the reserved opcode does, that its error leaves no trace behind it, and that a
host that keeps the contract sees none (60_exceptions.md R170, R171, R173, R179). -/

namespace Sys2Proof.Machine

/-! ### Which command raises the error -/

theorem opcode_decode (w : CommandWord) : (decode w).opcode = w.extractLsb' 64 2 := by
  obtain ⟨i, rfl⟩ := encode_surjective w
  rw [decode_encode, (fields_encode i).1]

/-- The opcode wires name the command that an edge offers (R66, R67). -/
theorem opcode_decode_wordOnWires (e : Edge) : (decode (wordOnWires e)).opcode = e.cmdOp :=
  (opcode_decode _).trans (Laws.Fields.fields_of_append e.cmdOp e.cmdHash).1

/-- The reserved opcode is the only one that answers with an error (R170). -/
theorem answerOf_err_eq_none_iff (s : State) (i : Instr) : (answerOf s i).err = .none ↔ i.opcode ≠ 0b11#2 := by
  cases i with
  | len x => simp [answerOf, Instr.opcode]
  | add h => simp [answerOf, Instr.opcode]
  | check h => simp [answerOf, Instr.opcode]
  | illegal x => simp [answerOf, Instr.opcode]

/-- A command puts its one answer behind all earlier responses (R64). -/
theorem allResponses_exec {i : Instr} {s t : State} (ht : exec i s = .next t) :
    allResponses t = allResponses s ++ [answerOf s i] := by
  cases exec_next ht with
  | query isQuery =>
    rw [Host.Outcome.next.inj (ht.symm.trans (exec_query_of_ready (exec_ready ht) isQuery))]
    exact allResponses_respond _ _
  | add => exact allResponses_respond _ _

/-! ### No error so far -/

/-- No response so far, taken or waiting, is an error. -/
def NoErrorYet (s : State) : Prop := ∀ r ∈ allResponses s, r.err = .none

theorem noErrorYet_of_allResponses_eq {s t : State} (hs : NoErrorYet s) (h : allResponses t = allResponses s) :
    NoErrorYet t := fun r hr => hs r (h ▸ hr)

/-- Dropping the responses that wait brings no error (R203). -/
theorem noErrorYet_of_dropped {s t : State} (hs : NoErrorYet s) (hp : t.pending = [])
    (hd : t.delivered = s.delivered) : NoErrorYet t := by
  intro r hr
  have hr : r ∈ s.delivered := by simpa [allResponses, hp, hd] using hr
  exact hs r (List.mem_append_left _ hr)

theorem noErrorYet_exec {i : Instr} {s t : State} (hs : NoErrorYet s) (hi : i.opcode ≠ 0b11#2)
    (ht : exec i s = .next t) : NoErrorYet t := by
  rw [NoErrorYet, allResponses_exec ht]
  exact List.forall_mem_append.2 ⟨hs, List.forall_mem_singleton.2 ((answerOf_err_eq_none_iff s i).2 hi)⟩

/-- No event brings an error but an edge that accepts the reserved opcode. -/
theorem noErrorYet_step {s t : State} {ev : Event} {rest : List Event} (hs : NoErrorYet s)
    (hin : s.input = ev :: rest) (hev : issuesNoReserved (ev :: rest) = true) (ht : step s = .next t) :
    NoErrorYet t := by
  cases step_next ht with
  | noInput => exact hs
  | powerLoss => exact noErrorYet_of_dropped hs rfl rfl
  | reset => exact noErrorYet_of_dropped hs rfl rfl
  | @quiet e rest => exact noErrorYet_of_allResponses_eq hs (allResponses_responseSide e { s with input := rest })
  | @command e rest u input acc run =>
    cases hin.symm.trans input
    have hop : e.cmdOp ≠ 0b11#2 := by
      simp only [issuesNoReserved, acc] at hev
      simpa using (Bool.and_eq_true_iff.1 hev).1
    have hside : NoErrorYet (responseSide e { s with input := rest }) :=
      noErrorYet_of_allResponses_eq hs (allResponses_responseSide e { s with input := rest })
    have hu : NoErrorYet u := noErrorYet_exec hside (opcode_decode_wordOnWires e ▸ hop) run
    exact noErrorYet_of_allResponses_eq hu rfl

theorem issuesNoReserved_tail {ev : Event} {rest : List Event} (h : issuesNoReserved (ev :: rest) = true) :
    issuesNoReserved rest = true := by
  cases ev with
  | powerLoss bytes n => exact h
  | edge e => exact (Bool.and_eq_true_iff.1 h).2

/-! ### Runs of events -/

theorem runEvents_cons_of_step {ev : Event} {evs : List Event} {s t : State}
    (ht : step { s with input := ev :: evs } = .next t) : runEvents (ev :: evs) s = runEvents evs t := by
  rw [runEvents_cons, ht]
  rfl

theorem runEvents_cons_next {ev : Event} {evs : List Event} {s t : State}
    (ht : runEvents (ev :: evs) s = .next t) :
    ∃ u, step { s with input := ev :: evs } = .next u ∧ runEvents evs u = .next t := by
  cases hu : step { s with input := ev :: evs } with
  | next u => exact ⟨u, rfl, (runEvents_cons_of_step hu).symm.trans ht⟩
  | fault f => simp [runEvents_cons, hu, andThen] at ht
  | refused r => simp [runEvents_cons, hu, andThen] at ht

/-- A legal build whose host keeps the boot duty takes its next event, and the duty goes on for the rest (R205). -/
theorem step_completes_of_bootsFirst {s : State} {ev : Event} {rest : List Event} (hb : s.build.legal = true)
    (hin : s.input = ev :: rest) (hboot : bootsFirst s.initialised (ev :: rest) = true) :
    ∃ t, step s = .next t ∧ t.build.legal = true ∧ bootsFirst t.initialised rest = true := by
  cases ev with
  | powerLoss bytes n => exact ⟨_, step_powerLoss hb hin, hb, hboot⟩
  | edge e =>
    cases hr : e.rst with
    | true =>
      have hrest : bootsFirst true rest = true := by simpa [bootsFirst, hr] using hboot
      exact ⟨_, step_reset hb hin hr, hb, hrest⟩
    | false =>
      obtain ⟨hready, hrest⟩ :
          (s.initialised = true ∨ accepts e = false) ∧ bootsFirst s.initialised rest = true := by
        simpa [bootsFirst, hr] using hboot
      rw [step_edge hb hin]
      cases ha : accepts e with
      | false =>
        exact ⟨_, clockEdge_of_not_accepts _ hr ha, by simpa using hb, by simpa using hrest⟩
      | true =>
        have hs : Ready (responseSide e { s with input := rest }) := ⟨by simpa using hb, by simpa [ha] using hready⟩
        obtain ⟨u, hu⟩ := exec_completes_of_ready (decode (wordOnWires e)) hs
        rw [clockEdge_of_accepts _ ha, hu]
        obtain ⟨m, n, r, rfl⟩ := exec_frame hu
        exact ⟨_, rfl, hs.1, by simpa using hrest⟩

/-- A host that keeps the boot duty is never refused (R205). -/
theorem runEvents_completes_of_bootsFirst {evs : List Event} {s : State} (hb : s.build.legal = true)
    (hboot : bootsFirst s.initialised evs = true) : ∃ t, runEvents evs s = .next t ∧ t.input = [] := by
  induction evs generalizing s with
  | nil => exact ⟨_, rfl, rfl⟩
  | cons ev evs ih =>
    obtain ⟨u, hu, hlegal, hrest⟩ := step_completes_of_bootsFirst (s := { s with input := ev :: evs }) hb rfl hboot
    rw [runEvents_cons_of_step hu]
    exact ih hlegal hrest

/-- Events without the reserved opcode bring no error (R170, R173). -/
theorem noErrorYet_runEvents {evs : List Event} {s t : State} (hs : NoErrorYet s)
    (hevs : issuesNoReserved evs = true) (ht : runEvents evs s = .next t) : NoErrorYet t := by
  induction evs generalizing s with
  | nil =>
    cases ht
    exact hs
  | cons ev evs ih =>
    obtain ⟨u, hu, ht⟩ := runEvents_cons_next ht
    exact ih (noErrorYet_step (s := { s with input := ev :: evs }) hs rfl hevs hu) (issuesNoReserved_tail hevs) ht

/-! ### The obligations -/

/-- Settles O59: the boot duty makes the run complete, and without the reserved opcode no event brings an error. The
duty to hold a waiting command is not needed. -/
theorem contractHostSeesNoError : Obligations.ContractHostSeesNoError := by
  unfold Obligations.ContractHostSeesNoError
  intro evs s hb hcontract hs
  obtain ⟨⟨hboot, -⟩, hreserved⟩ :
      (bootsFirst s.initialised evs = true ∧ holdsCommand evs = true) ∧ issuesNoReserved evs = true := by
    simpa only [hostContract, Bool.and_eq_true] using hcontract
  obtain ⟨t, ht, -⟩ := runEvents_completes_of_bootsFirst hb hboot
  exact ⟨t, ht, noErrorYet_runEvents hs hreserved ht⟩

/-- Settles O30: the state after the error response holds the same filter, which is all that the next command reads. -/
theorem errorIsNotSticky : Obligations.ErrorIsNotSticky := by
  unfold Obligations.ErrorIsNotSticky
  intro s u x i hu
  have hs : Ready s := exec_ready hu
  have hsame : SameFilter s (raiseIllegalCommand s) := ⟨hs.1, rfl, rfl, rfl, rfl⟩
  obtain ⟨m, n, r, hes, het⟩ := exec_congr_of_ready hsame hs.2 i
  cases hu.symm.trans hes
  exact ⟨r, _, _, rfl, exec_illegal_of_ready hs x, het, rfl⟩

/-- Settles O29: the guard passes in a ready state, and raising the error only responds. -/
theorem illegalResult : Obligations.IllegalResult := by
  unfold Obligations.IllegalResult
  exact fun _ x hs => exec_illegal_of_ready hs x

end Sys2Proof.Machine
end

section
/-! PROOFS. Family 70_reset_and_hazards and the placing of a command: what a reset edge constructs, that a second one adds
nothing, and that a placed command is the next to run (70_reset_and_hazards.md R200 to R205, 60_exceptions.md R184,
30_encoding.md section 3). -/

namespace Sys2Proof.Machine

/-! ### Reset events -/

/-- A reset event leaves nothing for a second one to clear (R202). -/
theorem resetEvent_resetEvent (s : State) : resetEvent (resetEvent s) = resetEvent s := rfl

/-! ### Placing a command -/

/-- The `nbits` bits of the place hold the whole word of a command. -/
theorem withFetchWord_encode (s : State) (i : Instr) {nbits : Nat} (hn : 66 ≤ nbits) :
    s.withFetchWord nbits (encode i).toNat = { s with input := .edge (offerEdge (encode i)) :: s.input } := by
  have hfits : (encode i).toNat < 2 ^ nbits := (encode i).isLt.trans_le (Nat.pow_le_pow_right (by omega) hn)
  rw [State.withFetchWord, Nat.mod_eq_of_lt hfits, BitVec.ofNat_toNat, BitVec.setWidth_eq]

theorem offerResponse_false (s : State) : offerResponse false s = s := by simp [offerResponse]

theorem mapNext_offerResponse_false (o : Host.Outcome State Fault Refusal) : mapNext (offerResponse false) o = o := by
  cases o with
  | next s => rw [mapNext, offerResponse_false]
  | fault f => rfl
  | refused r => rfl

/-- The edge that offers a command executes it and does nothing else: it moves no response and shows no new one. -/
theorem clockEdge_offerEdge_encode (i : Instr) (s : State) : clockEdge (offerEdge (encode i)) s = exec i s := by
  have hside : responseSide (offerEdge (encode i)) s = s := responseSide_of_not_rspReady s rfl
  rw [clockEdge_of_accepts s (accepts_of_wires rfl rfl rfl), wordOnWires_offerEdge, decode_encode, hside]
  exact mapNext_offerResponse_false _

/-! ### The obligations -/

/-- Settles O58: the duty makes each event complete and goes on for the rest, so the run takes them all. -/
theorem bootedBlockAlwaysGoesOn : Obligations.BootedBlockAlwaysGoesOn := by
  unfold Obligations.BootedBlockAlwaysGoesOn
  exact fun _ _ hb hboot => runEvents_completes_of_bootsFirst hb hboot

/-- Settles O6: the placed edge offers the whole word, and such an edge is exactly the execution of its command. -/
theorem placedCommandRunsNext : Obligations.PlacedCommandRunsNext := by
  unfold Obligations.PlacedCommandRunsNext
  intro s i nbits hb hn
  have hstep : step { s with input := .edge (offerEdge (encode i)) :: s.input } = clockEdge (offerEdge (encode i)) s :=
    step_edge hb rfl
  rw [withFetchWord_encode s i hn, hstep, clockEdge_offerEdge_encode]

/-- Settles O8: an edge with `rst` is the reset event, whose fields the laws of the state give. -/
theorem resetEdgeConstructs : Obligations.ResetEdgeConstructs := by
  unfold Obligations.ResetEdgeConstructs
  intro s e rest hb hin hr
  exact ⟨_, step_reset hb hin hr, fun _ => rfl, rfl, rfl, rfl, rfl, rfl, rfl, rfl⟩

/-- Settles O9: both steps are reset events, and the second of two clears nothing more. -/
theorem repeatedResetIsOneReset : Obligations.RepeatedResetIsOneReset := by
  unfold Obligations.RepeatedResetIsOneReset
  intro s e e' rest hb hin hr hr'
  have hfirst := step_reset hb hin hr
  have hsecond := step_reset (s := resetEvent { s with input := .edge e' :: rest }) hb rfl hr'
  exact ⟨_, hfirst, hsecond.trans (congrArg _ (resetEvent_resetEvent { s with input := rest }))⟩

/-- Settles O7: the step takes its event from the input, and there is none. -/
theorem noInputKeepsTheState : Obligations.NoInputKeepsTheState := by
  unfold Obligations.NoInputKeepsTheState
  exact fun _ => step_nil

end Sys2Proof.Machine
end
